-- ==== Sys2Proof/Word.lean ====
section
/-! DEFINITION. The word types of the core: bytes, lanes, the lane array and the two words of a command (R6, R8). -/

namespace Sys2Proof

/-- A byte, 8 bits (R8). -/
abbrev Byte := BitVec 8

/-- A lane: one unsigned 64-bit integer of the 5×5 grid (R6, R14). -/
abbrev Lane := BitVec 64

/-- A command word `W[15:0]` (R70). -/
abbrev CmdWord := BitVec 16

/-- A data operand `DATA[63:0]` (R70). -/
abbrev DataWord := BitVec 64

/-- A lane coordinate, column or row, in 0..4. Its addition wraps modulo 5, as R10 asks of index arithmetic. -/
abbrev Coord := Fin 5

/-- The state array: 25 lanes, held by linear index `L = 5*y + x` (R9, R20). Exactly 25, never resized (R23). -/
abbrev Lanes := Vector Lane 25

end Sys2Proof
end

