-- ==== Sys2Proof/Syntax.lean ====
section
/-! DEFINITION. The commands: the nine rows of the opcode map (R74), and the pair of words a command is presented as (R70). -/

namespace Sys2Proof

/-- A decoded command, one constructor per row of spec/opcode_table.json.
Operand fields are the zero-extended numbers of R73; `WellFormed.lean` says which numbers fit the field (log entry 11). -/
inductive Instr where
  /-- NOP (R200). -/
  | nop
  /-- INIT (R202). -/
  | init
  /-- CLEAR (R204). -/
  | clear
  /-- ABSORB: the byte count `N = W[3:0]` and the data operand (R172). -/
  | absorb (n : Nat) (data : DataWord)
  /-- FINAL (R176). -/
  | final
  /-- SQUEEZE: the digest word index `K = W[1:0]` (R180). -/
  | squeeze (k : Nat)
  /-- PERMUTE (R150). -/
  | permute
  /-- SETLANE: the lane index `L = W[4:0]` and the data operand (R103). -/
  | setlane (l : Nat) (data : DataWord)
  /-- GETLANE: the lane index `L = W[4:0]` (R104). -/
  | getlane (l : Nat)
deriving DecidableEq, Repr

/-- The operation a row of the opcode map names, without operands (R74). -/
inductive Op where
  | nop | init | clear | absorb | final | squeeze | permute | setlane | getlane
deriving DecidableEq, Repr

/-- The row of the opcode map a command belongs to. -/
def Instr.op : Instr → Op
  | .nop => .nop
  | .init => .init
  | .clear => .clear
  | .absorb _ _ => .absorb
  | .final => .final
  | .squeeze _ => .squeeze
  | .permute => .permute
  | .setlane _ _ => .setlane
  | .getlane _ => .getlane

/-- What the host presents in one handshake: a command word and its data operand (R70). -/
structure Command where
  word : CmdWord
  data : DataWord
deriving DecidableEq, Repr

end Sys2Proof
end

