-- ==== Sys2Proof/WellFormed.lean ====
section
/-! DEFINITION. Which terms of `Instr` are well-formed words, and which of those have a legal operand (R73, R82). -/

namespace Sys2Proof

/-- The operand fits its field of the command word: N has 4 bits, K has 2, L has 5 (R71).
In the words of R73, N = 0, N in 9..15 and L in 25..31 are well-formed words whose operand value is illegal. -/
def Instr.wf : Instr → Bool
  | .nop => true
  | .init => true
  | .clear => true
  | .absorb n _ => n < 16
  | .final => true
  | .squeeze k => k < 4
  | .permute => true
  | .setlane l _ => l < 32
  | .getlane l => l < 32

/-- The operand value is legal (R73): N in 1..8, L in 0..24; every K that fits its field is legal. -/
def Instr.operandLegal : Instr → Bool
  | .nop => true
  | .init => true
  | .clear => true
  | .absorb n _ => 1 ≤ n && n ≤ 8
  | .final => true
  | .squeeze k => k < 4
  | .permute => true
  | .setlane l _ => l ≤ 24
  | .getlane l => l ≤ 24

end Sys2Proof
end

