-- ==== Sys2Proof/Decode.lean ====
section
/-! DEFINITION. The decoder, total on every command word, and after it the encoder, both read off the opcode map (R70 to R76). -/

namespace Sys2Proof

/-- Why a word is ILLEGAL (R75). -/
inductive DecodeError where
  /-- OPC is 0x9 to 0xF. -/
  | reservedOpcode
  /-- A reserved ARG bit of the opcode's layout is 1. -/
  | reservedArgBit
deriving DecidableEq, Repr

/-- The nine rows, in the opcode map's order (R74). -/
def opcodeMap : List Op :=
  [.nop, .init, .clear, .absorb, .final, .squeeze, .permute, .setlane, .getlane]

/-- The `match` column of the opcode map (R74). -/
def Op.pattern : Op → CmdWord
  | .nop => 0x0000#16
  | .init => 0x1000#16
  | .clear => 0x2000#16
  | .absorb => 0x3000#16
  | .final => 0x4000#16
  | .squeeze => 0x5000#16
  | .permute => 0x6000#16
  | .setlane => 0x7000#16
  | .getlane => 0x8000#16

/-- The `mask` column of the opcode map (R74): the opcode and the reserved ARG bits of the row's layout (R71). -/
def Op.mask : Op → CmdWord
  | .nop => 0xFFFF#16
  | .init => 0xFFFF#16
  | .clear => 0xFFFF#16
  | .absorb => 0xFFF0#16
  | .final => 0xFFFF#16
  | .squeeze => 0xFFFC#16
  | .permute => 0xFFFF#16
  | .setlane => 0xFFE0#16
  | .getlane => 0xFFE0#16

/-- The word selects the row: `W & mask = match` (R74). -/
def Op.selects (o : Op) (w : CmdWord) : Bool :=
  w &&& o.mask == o.pattern

/-- `N = zext_8(W[3:0])` (R73). -/
def fieldN (w : CmdWord) : Nat := (w.extractLsb' 0 4).toNat

/-- `K = zext_8(W[1:0])` (R73). -/
def fieldK (w : CmdWord) : Nat := (w.extractLsb' 0 2).toNat

/-- `L = zext_8(W[4:0])` (R73). -/
def fieldL (w : CmdWord) : Nat := (w.extractLsb' 0 5).toNat

/-- `OPC = W[15:12]` (R70). -/
def fieldOpc (w : CmdWord) : Nat := (w.extractLsb' 12 4).toNat

/-- The operands of the row's layout (R71), and the data operand where the command uses one (R72). -/
def Op.instr (o : Op) (w : CmdWord) (d : DataWord) : Instr :=
  match o with
  | .nop => .nop
  | .init => .init
  | .clear => .clear
  | .absorb => .absorb (fieldN w) d
  | .final => .final
  | .squeeze => .squeeze (fieldK w)
  | .permute => .permute
  | .setlane => .setlane (fieldL w) d
  | .getlane => .getlane (fieldL w)

/-- The decoder (R74, R75, R76): the row the word selects, or the reason the word is ILLEGAL. -/
def decode (w : CmdWord) (d : DataWord) : Except DecodeError Instr :=
  match opcodeMap.find? (fun o => o.selects w) with
  | some o => .ok (o.instr w d)
  | none => .error (if 9 ≤ fieldOpc w then .reservedOpcode else .reservedArgBit)

/-- The number in the named ARG bits; 0 for layout Z (R71). -/
def Instr.arg : Instr → Nat
  | .nop => 0
  | .init => 0
  | .clear => 0
  | .absorb n _ => n
  | .final => 0
  | .squeeze k => k
  | .permute => 0
  | .setlane l _ => l
  | .getlane l => l

/-- The data operand of the command; 0 where the command ignores it, as the assembler has it (R72, R82). -/
def Instr.dataOperand : Instr → DataWord
  | .nop => 0#64
  | .init => 0#64
  | .clear => 0#64
  | .absorb _ d => d
  | .final => 0#64
  | .squeeze _ => 0#64
  | .permute => 0#64
  | .setlane _ d => d
  | .getlane _ => 0#64

/-- The encoder: the words of a well-formed command (R74, R82). -/
def encode (i : Instr) : Command :=
  { word := i.op.pattern ||| BitVec.ofNat 16 i.arg, data := i.dataOperand }

/-- The command whose bits are `w` as spec/opcode_table.json numbers them: the command word in bits 15..0 and, counting on,
the data operand in bits 79..16; every bit at or above `nbits` is 0
(DESIGN CHOICE, log entry 10). -/
def tableCommand (nbits w : Nat) : Command :=
  let v := w % 2 ^ nbits
  { word := BitVec.ofNat 16 v, data := BitVec.ofNat 64 (v / 2 ^ 16) }

/-- What the decoder reads from the bits `w` of a row of spec/opcode_table.json. -/
def decodeTableWord (nbits w : Nat) : Option Instr :=
  let c := tableCommand nbits w
  match decode c.word c.data with
  | .ok i => some i
  | .error _ => none

end Sys2Proof
end

