-- ==== Sys2Proof/Config.lean ====
section
/-! DEFINITION. The fixed parameters of the one instance in scope (R2, R6, R7). None is configurable, and the spec leaves no value free, so there is no free value here (DEDUCED, log entry 9). -/

namespace Sys2Proof.Config

/-- Bytes of the state array: 1600 bits = 200 bytes (R6). -/
abbrev stateBytes : Nat := 200

/-- `NLANES` (R6). -/
abbrev laneCount : Nat := 25

/-- `NR`, rounds per permutation (R6). -/
abbrev rounds : Nat := 24

/-- `RATE`, bytes of the state that absorb input (R6). -/
abbrev rate : Nat := 136

/-- `CAP`, the remaining bytes (R6). -/
abbrev capacity : Nat := 64

/-- `DIG`, digest bytes (R6). -/
abbrev digestBytes : Nat := 32

/-- `SUFFIX`, the first padding byte (R6). -/
def suffix : Byte := 0x06#8

/-- `PADEND`, the last padding bit, XORed into byte `rate - 1` (R6). -/
def padEnd : Byte := 0x80#8

end Sys2Proof.Config
end

