-- ==== Sys2Proof/Machine/State.lean ====
section
/-! DEFINITION. The machine's state as plain data, the reasons a step can stop, and the state after reset (R20, R25, R42). -/

namespace Sys2Proof.Machine

/-- PHASE, the controller mode (R26). All four encodings are legal. -/
inductive Phase where
  /-- 0: the raw permutation engine mode. -/
  | idle
  /-- 1: a hash operation is in progress and message bytes are accepted. -/
  | absorb
  /-- 2: the digest may be read. -/
  | squeeze
  /-- 3: a command was illegal; only NOP, INIT and CLEAR act. -/
  | error
deriving DecidableEq, Repr

/-- ERRCODE, the cause of an error (R30, R220). The values 5..15 are never held (R25; DEDUCED, log entry 6). -/
inductive ErrCode where
  /-- 0 NONE. -/
  | none
  /-- 1 ILLEGAL: the command word is ILLEGAL. -/
  | illegal
  /-- 2 BAD_ARG: an operand out of range. -/
  | badArg
  /-- 3 WRONG_PHASE: the command is not legal in the current phase. -/
  | wrongPhase
  /-- 4 OVERRUN: ABSORB with POS + N > 136. -/
  | overrun
deriving DecidableEq, Repr

/-- What the host drives on the core's inputs at a step (R268; DESIGN CHOICE, log entry 1). -/
inductive HostMove where
  /-- `rst = 1` for this step (R250). -/
  | reset
  /-- `rst = 0` and `cmd_valid = 0` for this step. -/
  | wait
  /-- `rst = 0` and `cmd_valid = 1`, the command held until it is accepted (R261). -/
  | command (c : Command)
deriving DecidableEq, Repr

/-- Why a step stops with a fault. The spec's machine never stops (R220, R235); each of these marks a place where
the spec's rules say nothing, and none arises from a state in which the invariants of R41 hold (DEDUCED, log entry 4). Safe. -/
inductive Fault where
  /-- FINAL with POS at or above 200, which names no byte of `S[0..199]` (R50): raised by the rules that XOR into the byte
  view. R41 (a) excludes it. Safe. -/
  | noSuchStateByte
  /-- A lane index at or above 25: raised by the lane reads and writes on a term no decoder answers. Safe. -/
  | noSuchLane
  /-- An engine step with ROUND above 23, for which there is no round constant (R127): raised by the engine step.
  R41 (d) excludes it. Safe. -/
  | noSuchRound
deriving DecidableEq, Repr

/-- Why an instruction has no meaning here. No arm of `exec` answers a refusal. -/
inductive Refusal where
  /-- The instruction has no meaning in this model yet: raised by `exec`'s rejected arms alone, of which there are none. Safe. -/
  | notModelled (mnemonic : String)
deriving DecidableEq, Repr

/-- Everything the spec gives the machine. STATUS and `cmd_ready` are not storage (R32, R33): `Flags.lean` computes them.
`pc` is the host's position in its command sequence (R24) and `host` what it will drive next (DESIGN CHOICE, log entry 1).
The lanes are the state's only storage; its bytes are computed from them (R22; DEDUCED, log entry 3). -/
structure State where
  /-- The state array A (R20). -/
  lanes : Lanes
  /-- PHASE (R26). -/
  phase : Phase
  /-- BUSY (R28). -/
  busy : Bool
  /-- ROUND, 5 bits (R29). -/
  round : BitVec 5
  /-- POS, 8 bits (R27). -/
  pos : BitVec 8
  /-- ERRCODE (R30). -/
  errcode : ErrCode
  /-- RESULT (R31). -/
  result : BitVec 64
  /-- The number of commands accepted since reset, with no width limit (R24). -/
  pc : Nat
  /-- What the host drives from this step on, first move first; after the last move it presents nothing. -/
  host : List HostMove
deriving DecidableEq, Repr

/-- The all-zero state array (R42). -/
def zeroLanes : Lanes := Vector.replicate 25 0#64

/-- The machine right after reset (R42), its host presenting nothing (DESIGN CHOICE, log entry 1). The time before the first reset is not modelled
(R252, log entry 5). -/
def State.reset : State :=
  { lanes := zeroLanes
    phase := .idle
    busy := false
    round := 0#5
    pos := 0#8
    errcode := .none
    result := 0#64
    pc := 0
    host := [] }

end Sys2Proof.Machine
end

