-- ==== Sys2Proof/Machine/Ops.lean ====
section
/-! DEFINITION. The shared operations over the state array (lanes by coordinate, the byte view) and over the registers:
taking an error and leaving it, starting a permutation, accepting a command, reset. -/

namespace Sys2Proof.Machine

/-! ## The state array by coordinate (R9, R20) -/

/-- The column of a lane, `x = L mod 5` (R9). -/
def laneX (l : Fin 25) : Coord := ⟨l.val % 5, by omega⟩

/-- The row of a lane, `y = L div 5` (R9). -/
def laneY (l : Fin 25) : Coord := ⟨l.val / 5, by omega⟩

/-- The linear index of a lane, `L = 5*y + x` (R9). -/
def laneIndex (x y : Coord) : Fin 25 := ⟨5 * y.val + x.val, by omega⟩

/-- `A[x][y]` (R12). -/
def laneAt (a : Lanes) (x y : Coord) : Lane := a[laneIndex x y]

/-- The lane array whose lane (x, y) is `f x y`: one simultaneous update of all 25 (R13). -/
def lanesOf (f : Coord → Coord → Lane) : Lanes :=
  Vector.ofFn fun l => f (laneX l) (laneY l)

/-- Lane `L mod 5, L div 5` for a linear index; none where there is no such lane. -/
def readLane (a : Lanes) (l : Nat) : Option Lane :=
  if h : l < 25 then some a[l] else none

/-- `A[L mod 5][L div 5] <- v`; none where there is no such lane. -/
def writeLane (a : Lanes) (l : Nat) (v : Lane) : Option Lanes :=
  if h : l < 25 then some (a.set l v) else none

/-! ## The byte view `S[0..199]` (R21, R22): another name for the bits of the lanes, least significant byte first -/

/-- Byte `j` of a lane: its bits `[8j+7 : 8j]` (R21). -/
def laneByte (v : Lane) (j : Nat) : Byte := v.extractLsb' (8 * j) 8

/-- The lane with byte `j` replaced and no other bit changed (R22). -/
def setLaneByte (v : Lane) (j : Nat) (b : Byte) : Lane :=
  (v &&& ~~~(0xFF#64 <<< (8 * j))) ||| (b.setWidth 64 <<< (8 * j))

/-- `S[i]` (R22); none outside the state byte space (R50). -/
def readByte (a : Lanes) (i : Nat) : Option Byte :=
  if h : i < 200 then some (laneByte a[i / 8] (i % 8)) else none

/-- `S[i] <- b` (R22); none outside the state byte space (R50). -/
def writeByte (a : Lanes) (i : Nat) (b : Byte) : Option Lanes :=
  if h : i < 200 then some (a.set (i / 8) (setLaneByte a[i / 8] (i % 8) b)) else none

/-- `S[i] <- S[i] ^ b` (R63: a read-modify-write inside the hardware). -/
def xorByte (a : Lanes) (i : Nat) (b : Byte) : Option Lanes :=
  (readByte a i).bind fun c => writeByte a i (c ^^^ b)

/-- `MemRead(addr, n)`: `n` state bytes as one little-endian number (R12). -/
def memRead (a : Lanes) (addr : Nat) : Nat → Option Nat
  | 0 => some 0
  | n + 1 =>
    match memRead a addr n, readByte a (addr + n) with
    | some low, some b => some (low + b.toNat * 2 ^ (8 * n))
    | _, _ => none

/-- `MemWrite(addr, n, v)`: `S[addr+j] <- v[8j+7:8j]` for j in 0..n-1 (R12). -/
def memWrite (a : Lanes) (addr : Nat) (v : Nat) : Nat → Option Lanes
  | 0 => some a
  | n + 1 => (memWrite a addr v n).bind fun a' => writeByte a' (addr + n) (BitVec.ofNat 8 (v / 2 ^ (8 * n)))

/-- Serialization of the state: `S[0], S[1], ..., S[199]` in that order (R22). -/
def serialize (a : Lanes) : List Byte :=
  (List.range 200).map fun i => laneByte (a.getD (i / 8) 0#64) (i % 8)

/-- The number of 64 bits whose byte `i` is the `i`-th of the list (R52, R83). -/
def packBytes : List Byte → BitVec 64
  | [] => 0#64
  | b :: bs => b.setWidth 64 ||| (packBytes bs <<< 8)

/-- Deserialization, the inverse of `serialize` (R22): lane L is bytes `8L .. 8L+7`, least significant first. -/
def deserialize (bytes : List Byte) : Lanes :=
  Vector.ofFn fun l : Fin 25 => packBytes ((bytes.drop (8 * l.val)).take 8)

/-! ## The registers -/

/-- `raise Error(code)`, error entry: PHASE and ERRCODE change and nothing else; no vector and no saved context (R222). -/
def raiseError (code : ErrCode) (s : State) : State :=
  { s with phase := .error, errcode := code }

/-- The return from an error, and the start of an operation from any other phase: everything the hardware holds is zeroed and
the phase is the one named (R202, R204, R224). BUSY is 0 already, because the command was accepted (DEDUCED, log entry 7). -/
def restart (p : Phase) (s : State) : State :=
  { s with lanes := zeroLanes, phase := p, round := 0#5, pos := 0#8, errcode := .none, result := 0#64 }

/-- Start a permutation: BUSY <- 1, ROUND <- 0 (R28, R150, R173, R176). -/
def startPermutation (s : State) : State :=
  { s with busy := true, round := 0#5 }

/-- RESULT <- v (R31). -/
def setResult (v : Lane) (s : State) : State :=
  { s with result := v }

/-- A <- a. -/
def setLanes (a : Lanes) (s : State) : State :=
  { s with lanes := a }

/-- POS <- p. -/
def setPos (p : BitVec 8) (s : State) : State :=
  { s with pos := p }

/-- The host's part of accepting a command: `pc <- pc + 1` (R24, R80), and the host moves on to `rest`. -/
def takeCommand (rest : List HostMove) (s : State) : State :=
  { s with pc := s.pc + 1, host := rest }

/-- The host moves on to `rest` with no command accepted. -/
def setHost (rest : List HostMove) (s : State) : State :=
  { s with host := rest }

/-- A step at which `rst = 1` (R250): every piece of state, the host's pc with it, at its reset value. -/
def applyReset (rest : List HostMove) : State :=
  { State.reset with host := rest }

/-- An accepted word that is ILLEGAL (R75, R80): in the ERROR phase no effect, elsewhere error 1. -/
def illegalWord (s : State) : State :=
  if s.phase = .error then s else raiseError .illegal s

end Sys2Proof.Machine
end

