-- ==== Sys2Proof/Machine/Control.lean ====
section
/-! DEFINITION. The control commands NOP, INIT and CLEAR, which act in every phase, ERROR included (R80, R200, R202, R204). -/

namespace Sys2Proof.Machine

/-- NOP: nothing changes; the pc has moved at acceptance (R200). -/
def execNop (s : State) : Host.Outcome State Fault Refusal :=
  .next s

/-- INIT: zero the state and enter the ABSORB phase (R202). -/
def execInit (s : State) : Host.Outcome State Fault Refusal :=
  .next (restart .absorb s)

/-- CLEAR: zero the state and enter the IDLE phase (R204). -/
def execClear (s : State) : Host.Outcome State Fault Refusal :=
  .next (restart .idle s)

end Sys2Proof.Machine
end

