-- ==== Sys2Proof/Machine/Flags.lean ====
section
/-! DEFINITION. The status output and the handshake, both computed from the registers (R32, R33), and the phase legality table (R81).
The hardware has no condition codes (R34). -/

namespace Sys2Proof.Machine

/-- The 2-bit encoding of PHASE (R26). -/
def Phase.code : Phase → BitVec 2
  | .idle => 0#2
  | .absorb => 1#2
  | .squeeze => 2#2
  | .error => 3#2

/-- The 4-bit encoding of ERRCODE (R220). -/
def ErrCode.code : ErrCode → BitVec 4
  | .none => 0#4
  | .illegal => 1#4
  | .badArg => 2#4
  | .wrongPhase => 3#4
  | .overrun => 4#4

/-- STATUS (R32): BUSY [0], PHASE [2:1], ERRCODE [7:4], ROUND [12:8], POS [23:16]; bits 3, 15:13 and 31:24 read 0. -/
def State.status (s : State) : BitVec 32 :=
  (BitVec.ofBool s.busy).setWidth 32
    ||| (s.phase.code.setWidth 32 <<< 1)
    ||| (s.errcode.code.setWidth 32 <<< 4)
    ||| (s.round.setWidth 32 <<< 8)
    ||| (s.pos.setWidth 32 <<< 16)

/-- The reset input at this step (R250). -/
def State.rst (s : State) : Bool :=
  match s.host with
  | .reset :: _ => true
  | _ => false

/-- `cmd_ready`: NOT BUSY while reset is not asserted, 0 while it is (R33). -/
def State.cmdReady (s : State) : Bool := !s.rst && !s.busy

/-- The phase legality table (R81), row by row. The ERROR column is R80's: there only NOP, INIT and CLEAR perform their rule. -/
def legalIn : Op → Phase → Bool
  | .nop, _ => true
  | .init, _ => true
  | .clear, _ => true
  | .absorb, p => p = .absorb
  | .final, p => p = .absorb
  | .squeeze, p => p = .squeeze
  | .permute, p => p = .idle
  | .setlane, p => p = .idle
  | .getlane, p => p = .idle || p = .absorb || p = .squeeze

/-- The checks of R80 on an accepted, well-formed word of a command that does not act in the ERROR phase, in their order: no effect
in the ERROR phase, then WRONG_PHASE, BAD_ARG, OVERRUN, and otherwise the command's rule. -/
def checked (o : Op) (argLegal fits : Bool) (rule : State → Host.Outcome State Fault Refusal) (s : State) :
    Host.Outcome State Fault Refusal :=
  if s.phase = .error then .next s
  else if !(legalIn o s.phase) then .next (raiseError .wrongPhase s)
  else if !argLegal then .next (raiseError .badArg s)
  else if !fits then .next (raiseError .overrun s)
  else rule s

end Sys2Proof.Machine
end

