-- ==== Sys2Proof/Machine/Operands.lean ====
section
/-! DEFINITION. The operands of the commands: their legal values, the bytes of the data operand, the addresses they form (R51, R52, R72, R73). -/

namespace Sys2Proof.Machine

/-- The ABSORB byte count is legal: N in 1..8 (R73). -/
def countLegal (n : Nat) : Bool := 1 ≤ n && n ≤ 8

/-- The lane index is legal: L in 0..24 (R73). -/
def laneLegal (l : Nat) : Bool := l ≤ 24

/-- The chunk ends at or before the end of the rate: not `POS + N > 136` (R174). -/
def chunkFits (pos : BitVec 8) (n : Nat) : Bool := pos.toNat + n ≤ Config.rate

/-- Message byte `i` of an ABSORB, `DATA[8i+7:8i]` (R52, R72). -/
def dataByte (d : DataWord) (i : Nat) : Byte := d.extractLsb' (8 * i) 8

/-- `S[base + i] <- S[base + i] ^ DATA[8i+7 : 8i]` for i in 0..n-1 (R172). -/
def xorBytes (a : Lanes) (base : Nat) (d : DataWord) : Nat → Option Lanes
  | 0 => some a
  | n + 1 => (xorBytes a base d n).bind fun a' => xorByte a' (base + n) (dataByte d n)

/-- The padding of FINAL: 0x06 into `S[pos]`, then 0x80 into `S[135]`; both hit one byte when pos is 135 (R176). -/
def xorPadding (a : Lanes) (pos : Nat) : Option Lanes :=
  (xorByte a pos Config.suffix).bind fun a' => xorByte a' (Config.rate - 1) Config.padEnd

end Sys2Proof.Machine
end

