-- ==== Sys2Proof/Machine/LaneAccess.lean ====
section
/-! DEFINITION. The lane access commands SETLANE and GETLANE (R103, R104). -/

namespace Sys2Proof.Machine

/-- SETLANE's own rule: `A[L mod 5][L div 5] <- DATA` (R103). -/
def setlaneRule (l : Nat) (d : DataWord) (s : State) : Host.Outcome State Fault Refusal :=
  match writeLane s.lanes l d with
  | some a => .next (setLanes a s)
  | none => .fault .noSuchLane

/-- SETLANE (R103). -/
def execSetlane (l : Nat) (d : DataWord) (s : State) : Host.Outcome State Fault Refusal :=
  checked .setlane (laneLegal l) true (setlaneRule l d) s

/-- GETLANE's own rule: `RESULT <- A[L mod 5][L div 5]` (R104). -/
def getlaneRule (l : Nat) (s : State) : Host.Outcome State Fault Refusal :=
  match readLane s.lanes l with
  | some v => .next (setResult v s)
  | none => .fault .noSuchLane

/-- GETLANE (R104). -/
def execGetlane (l : Nat) (s : State) : Host.Outcome State Fault Refusal :=
  checked .getlane (laneLegal l) true (getlaneRule l) s

end Sys2Proof.Machine
end

