-- ==== Sys2Proof/Machine/Datapath.lean ====
section
/-! DEFINITION. The round datapath: the two ROMs, rotl64, theta, rho, pi, chi, iota and their composition (R35, R36, R101, R120 to R128).
Each step is a function from its whole input array to a new array, so no step can read a lane it has written (R13, R260). -/

namespace Sys2Proof.Machine

/-- The round-constant ROM `RC[0..23]` (R35). -/
def roundConstants : Vector Lane 24 :=
  #v[0x0000000000000001#64, 0x0000000000008082#64, 0x800000000000808A#64, 0x8000000080008000#64,
     0x000000000000808B#64, 0x0000000080000001#64, 0x8000000080008081#64, 0x8000000000008009#64,
     0x000000000000008A#64, 0x0000000000000088#64, 0x0000000080008009#64, 0x000000008000000A#64,
     0x000000008000808B#64, 0x800000000000008B#64, 0x8000000000008089#64, 0x8000000000008003#64,
     0x8000000000008002#64, 0x8000000000000080#64, 0x000000000000800A#64, 0x800000008000000A#64,
     0x8000000080008081#64, 0x8000000000008080#64, 0x0000000080000001#64, 0x8000000080008008#64]

/-- `RC[i]` (R35). -/
def roundConstant (i : Fin 24) : Lane := roundConstants[i]

/-- The rotation-offset ROM by linear lane index L0..L24 (R36). -/
def rotationOffsets : Vector Nat 25 :=
  #v[0, 1, 62, 28, 27,
     36, 44, 6, 55, 20,
     3, 10, 43, 25, 39,
     41, 45, 15, 21, 8,
     18, 2, 61, 56, 14]

/-- `R[y][x]`, indexed row first as the spec has it (R36). -/
def rotationOffset (y x : Coord) : Nat := rotationOffsets[laneIndex x y]

/-- `rotl64(v, n)` for every natural n: the identity when n mod 64 = 0, and no shift by 64 ever occurs (R101, R262). -/
def rotl64 (v : Lane) (n : Nat) : Lane :=
  if n % 64 = 0 then v else (v <<< (n % 64)) ||| (v >>> (64 - n % 64))

/-- The column parity `C[x]` of theta (R121). -/
def columnParity (a : Lanes) (x : Coord) : Lane :=
  laneAt a x 0 ^^^ laneAt a x 1 ^^^ laneAt a x 2 ^^^ laneAt a x 3 ^^^ laneAt a x 4

/-- Theta (R121). -/
def theta (a : Lanes) : Lanes :=
  lanesOf fun x y => laneAt a x y ^^^ (columnParity a (x + 4) ^^^ rotl64 (columnParity a (x + 1)) 1)

/-- Rho (R122). -/
def rho (t : Lanes) : Lanes :=
  lanesOf fun x y => rotl64 (laneAt t x y) (rotationOffset y x)

/-- Pi: `Q[x][y] = P[(x + 3*y) mod 5][x]` (R123; 90_conflicts.md C1). -/
def pi (p : Lanes) : Lanes :=
  lanesOf fun x y => laneAt p (x + 3 * y) x

/-- Chi (R125). -/
def chi (q : Lanes) : Lanes :=
  lanesOf fun x y => laneAt q x y ^^^ (~~~(laneAt q (x + 1) y) &&& laneAt q (x + 2) y)

/-- Iota: only lane (0, 0) changes (R126). -/
def iota (a : Lanes) (i : Fin 24) : Lanes :=
  lanesOf fun x y => if x = 0 ∧ y = 0 then laneAt a x y ^^^ roundConstant i else laneAt a x y

/-- `Round(A, i)` (R120, R128). -/
def round (a : Lanes) (i : Fin 24) : Lanes :=
  iota (chi (pi (rho (theta a)))) i

/-- The first `k` rounds, in order. -/
def rounds (k : Nat) (a : Lanes) : Lanes :=
  ((List.finRange 24).take k).foldl round a

/-- `KeccakF(A)`: the 24 rounds 0, 1, ..., 23 in that order (R151). -/
def keccakF (a : Lanes) : Lanes := rounds Config.rounds a

end Sys2Proof.Machine
end

