-- ==== Sys2Proof/Machine/Permutation.lean ====
section
/-! DEFINITION. The permutation: the PERMUTE command (R150) and the engine step (R152). -/

namespace Sys2Proof.Machine

/-- The engine step, taken when BUSY = 1 (R152): one round at the index ROUND starts with (R127). PHASE, POS, ERRCODE and RESULT do
not change. A ROUND above 23, which R41 (d) excludes, names no round constant: a fault (log entry 4). -/
def engineStep (s : State) : Host.Outcome State Fault Refusal :=
  if h : s.round.toNat < 24 then
    .next { s with
      lanes := round s.lanes ⟨s.round.toNat, h⟩
      round := if s.round.toNat = 23 then 0#5 else s.round + 1#5
      busy := if s.round.toNat = 23 then false else s.busy }
  else .fault .noSuchRound

/-- PERMUTE's own rule: it only starts the engine (R150). -/
def permuteRule (s : State) : Host.Outcome State Fault Refusal :=
  .next (startPermutation s)

/-- PERMUTE (R150). -/
def execPermute (s : State) : Host.Outcome State Fault Refusal :=
  checked .permute true true permuteRule s

end Sys2Proof.Machine
end

