-- ==== Sys2Proof/Machine/Sponge.lean ====
section
/-! DEFINITION. The sponge controller's commands ABSORB, FINAL and SQUEEZE (R172 to R182). -/

namespace Sys2Proof.Machine

/-- ABSORB's own rule (R172): XOR the N bytes in at POS; when the block fills, POS <- 0 and the permutation starts in the same
command (R173), otherwise POS <- POS + N. -/
def absorbRule (n : Nat) (d : DataWord) (s : State) : Host.Outcome State Fault Refusal :=
  match xorBytes s.lanes s.pos.toNat d n with
  | some a =>
    if s.pos.toNat + n = Config.rate then .next (startPermutation (setPos 0#8 (setLanes a s)))
    else .next (setPos (s.pos + BitVec.ofNat 8 n) (setLanes a s))
  | none => .fault .noSuchStateByte

/-- ABSORB (R172, R173, R174). -/
def execAbsorb (n : Nat) (d : DataWord) (s : State) : Host.Outcome State Fault Refusal :=
  checked .absorb (countLegal n) (chunkFits s.pos n) (absorbRule n d) s

/-- FINAL's own rule (R176): pad the block in the state, POS <- 0, PHASE <- SQUEEZE, and start the permutation. -/
def finalRule (s : State) : Host.Outcome State Fault Refusal :=
  match xorPadding s.lanes s.pos.toNat with
  | some a => .next (startPermutation { setPos 0#8 (setLanes a s) with phase := .squeeze })
  | none => .fault .noSuchStateByte

/-- FINAL (R176). -/
def execFinal (s : State) : Host.Outcome State Fault Refusal :=
  checked .final true true finalRule s

/-- SQUEEZE's own rule: `RESULT <- A[K][0]` (R180); lane (K, 0) is lane K, and no permutation is started (R182). -/
def squeezeRule (k : Nat) (s : State) : Host.Outcome State Fault Refusal :=
  match readLane s.lanes k with
  | some v => .next (setResult v s)
  | none => .fault .noSuchLane

/-- SQUEEZE (R180). -/
def execSqueeze (k : Nat) (s : State) : Host.Outcome State Fault Refusal :=
  checked .squeeze true true (squeezeRule k) s

end Sys2Proof.Machine
end

