-- ==== Sys2Proof/Machine/Dispatch.lean ====
section
/-! DEFINITION. One arm per constructor of `Instr`: the meaning of an accepted command (R74, R80). -/

namespace Sys2Proof.Machine

def exec (i : Instr) (s : State) : Host.Outcome State Fault Refusal :=
  match i with
  | .nop => Sys2Proof.Machine.execNop s
  | .init => Sys2Proof.Machine.execInit s
  | .clear => Sys2Proof.Machine.execClear s
  | .absorb n d => Sys2Proof.Machine.execAbsorb n d s
  | .final => Sys2Proof.Machine.execFinal s
  | .squeeze k => Sys2Proof.Machine.execSqueeze k s
  | .permute => Sys2Proof.Machine.execPermute s
  | .setlane l d => Sys2Proof.Machine.execSetlane l d s
  | .getlane l => Sys2Proof.Machine.execGetlane l s

end Sys2Proof.Machine
end

