-- ==== Sys2Proof/Machine/Port.lean ====
section
/-! DEFINITION. What happens at a step: reset over everything, then the engine, then the acceptance of a command (R154, R227). -/

namespace Sys2Proof.Machine

/-- The one event of a step, with what the host drives after it. -/
inductive Event where
  /-- `rst = 1`. -/
  | reset (rest : List HostMove)
  /-- BUSY = 1: the datapath takes one step. -/
  | engine (rest : List HostMove)
  /-- The command is accepted. -/
  | accept (c : Command) (rest : List HostMove)
  /-- BUSY = 0 and no command is presented. -/
  | quiet (rest : List HostMove)
deriving DecidableEq, Repr

/-- The event of this step (R227). While BUSY = 1 a presented command is held, not lost (R33, R261): the host still drives it after
the engine step. -/
def eventOf (s : State) : Event :=
  match s.host with
  | .reset :: rest => .reset rest
  | .wait :: rest => if s.busy then .engine rest else .quiet rest
  | .command c :: rest => if s.busy then .engine (.command c :: rest) else .accept c rest
  | [] => if s.busy then .engine [] else .quiet []

/-- The state in which the very next step accepts the command `c` (DESIGN CHOICE, log entry 2): the host presents it ahead of whatever it was going
to drive, and no permutation is running, since none of its steps accepts a command (R33). -/
def present (c : Command) (s : State) : State :=
  { s with host := .command c :: s.host, busy := false, round := 0#5 }

end Sys2Proof.Machine
end

