-- ==== Sys2Proof/Machine/Step.lean ====
section
/-! DEFINITION. One step of the machine (R154, R227): reset, an engine step, the acceptance of one command, or nothing. -/

namespace Sys2Proof.Machine

/-- The procedure of R80 on an accepted command: pc advances whatever the command does, an ILLEGAL word takes the error entry, and a
decoded command runs its meaning. -/
def accept (c : Command) (rest : List HostMove) (s : State) : Host.Outcome State Fault Refusal :=
  match decode c.word c.data with
  | .ok i => exec i (takeCommand rest s)
  | .error _ => .next (illegalWord (takeCommand rest s))

/-- One step (R227). -/
def step (s : State) : Host.Outcome State Fault Refusal :=
  match eventOf s with
  | .reset rest => .next (applyReset rest)
  | .engine rest => engineStep (setHost rest s)
  | .accept c rest => accept c rest s
  | .quiet rest => .next (setHost rest s)

/-- The state in which the next step accepts the command whose bits are `w` (DESIGN CHOICE, log entry 2). -/
def State.withFetchWord (s : State) (nbits w : Nat) : State :=
  present (tableCommand nbits w) s

end Sys2Proof.Machine
end

