-- ==== Sys2Proof/Machine/Reference.lean ====
section
/-! DEFINITION. The function the controller computes, as the source states it on a whole message (R170, R171), and the command
sequences that compute it from chunks (R175). The machine does not use these: claims compare it with them. -/

namespace Sys2Proof.Machine

/-- The padded message P of R170: at least one byte is added, and the length becomes a multiple of 136. -/
def padMessage (m : List Byte) : List Byte :=
  let q := Config.rate - m.length % Config.rate
  if q = 1 then m ++ [0x86#8]
  else m ++ [Config.suffix] ++ List.replicate (q - 2) 0x00#8 ++ [Config.padEnd]

/-- `S[i] <- S[i] ^ block[i]` for i in 0..135, the capacity bytes untouched (R170). -/
def xorBlock (a : Lanes) (block : List Byte) : Lanes :=
  deserialize ((serialize a).mapIdx fun i b => if i < Config.rate then b ^^^ block.getD i 0#8 else b)

/-- The state after the first `j` blocks of the padded message (R170). -/
def absorbBlocks (p : List Byte) : Nat → Lanes
  | 0 => zeroLanes
  | j + 1 => keccakF (xorBlock (absorbBlocks p j) ((p.drop (Config.rate * j)).take Config.rate))

/-- The state after the last permutation of R170. -/
def sha3State (m : List Byte) : Lanes :=
  absorbBlocks (padMessage m) ((padMessage m).length / Config.rate)

/-- `SHA3_256(M)`: the first 32 bytes of that state (R170, R181). -/
def sha3 (m : List Byte) : List Byte :=
  (serialize (sha3State m)).take Config.digestBytes

/-- The ABSORB of one chunk of message bytes (R83, R175). -/
def absorbChunk (c : List Byte) : Instr := .absorb c.length (packBytes c)

/-- The chunks, the first at message offset `o`, have 1 to 8 bytes each and none crosses a block boundary (R175). -/
def ChunksFit (o : Nat) : List (List Byte) → Prop
  | [] => True
  | c :: cs =>
    1 ≤ c.length ∧ c.length ≤ 8 ∧ o % Config.rate + c.length ≤ Config.rate ∧ ChunksFit (o + c.length) cs

/-- `INIT; ABSORB |c_1|, c_1; ...; ABSORB |c_m|, c_m; FINAL` (R175). -/
def hashCommands (chunks : List (List Byte)) : List Instr :=
  .init :: chunks.map absorbChunk ++ [.final]

/-- The host presents these commands one after another, holding each until it is accepted (R261). -/
def presentAll (is : List Instr) : List HostMove :=
  is.map fun i => .command (encode i)

end Sys2Proof.Machine
end

