-- ==== Sys2Proof/Machine/Assembler.lean ====
section
/-! DEFINITION. The assembler of the spec, from the parsed line on (`AsmText.lean` reads the text): the words of each syntax form, the refusal of an operand outside its
range, and the pseudo-instructions' expansions (R82, R83). The core itself sees command words only. -/

namespace Sys2Proof.Machine

/-- One line of the assembler syntax, parsed (R82). Numbers are as written. -/
inductive AsmLine where
  | nop
  | init
  | clear
  | absorb (n d : Nat)
  | final
  | squeeze (k : Nat)
  | permute
  | setlane (x y d : Nat)
  | getlane (x y : Nat)
  /-- `.cmd w, d`: the only way to write an ILLEGAL or BAD_ARG word. -/
  | cmd (w d : Nat)
deriving DecidableEq, Repr

/-- The words of a line; none where an operand is outside its stated range (R82). -/
def assemble : AsmLine → Option Command
  | .nop => some (encode .nop)
  | .init => some (encode .init)
  | .clear => some (encode .clear)
  | .absorb n d =>
    if 1 ≤ n ∧ n ≤ 8 ∧ d < 2 ^ (8 * n) then some (encode (.absorb n (BitVec.ofNat 64 d))) else none
  | .final => some (encode .final)
  | .squeeze k => if k < 4 then some (encode (.squeeze k)) else none
  | .permute => some (encode .permute)
  | .setlane x y d =>
    if x < 5 ∧ y < 5 ∧ d < 2 ^ 64 then some (encode (.setlane (5 * y + x) (BitVec.ofNat 64 d))) else none
  | .getlane x y => if x < 5 ∧ y < 5 then some (encode (.getlane (5 * y + x))) else none
  | .cmd w d =>
    if w < 2 ^ 16 ∧ d < 2 ^ 64 then some { word := BitVec.ofNat 16 w, data := BitVec.ofNat 64 d } else none

/-- The pseudo-instructions (R83). -/
inductive Pseudo where
  | absorbB (b : Nat)
  | absorbW (d : Nat)
  | message (m : List Byte)
  | digest
  | serialize
  | deserialize (bytes : List Byte)
  | hash (m : List Byte)
deriving DecidableEq, Repr

/-- The chunks of MESSAGE: every full 8-byte chunk, then the rest if there is any (R83). -/
def messageChunks : List Byte → List (List Byte)
  | b0 :: b1 :: b2 :: b3 :: b4 :: b5 :: b6 :: b7 :: rest => [b0, b1, b2, b3, b4, b5, b6, b7] :: messageChunks rest
  | [] => []
  | rest => [rest]

/-- `ABSORB |c|, d` with d the chunk's little-endian number (R83). -/
def absorbLine (c : List Byte) : AsmLine := .absorb c.length (packBytes c).toNat

/-- `SQUEEZE 0; SQUEEZE 1; SQUEEZE 2; SQUEEZE 3` (R83). -/
def digestLines : List AsmLine := [.squeeze 0, .squeeze 1, .squeeze 2, .squeeze 3]

/-- The expansion of a pseudo-instruction (R83). DESERIALIZE takes the 200 bytes of the state. -/
def expand : Pseudo → List AsmLine
  | .absorbB b => [.absorb 1 b]
  | .absorbW d => [.absorb 8 d]
  | .message m => (messageChunks m).map absorbLine
  | .digest => digestLines
  | .serialize => (List.range 25).map fun l => .getlane (l % 5) (l / 5)
  | .deserialize bytes =>
    (List.range 25).map fun l => .setlane (l % 5) (l / 5) (packBytes ((bytes.drop (8 * l)).take 8)).toNat
  | .hash m => [.init] ++ (messageChunks m).map absorbLine ++ [.final] ++ digestLines

end Sys2Proof.Machine
end

