-- ==== Sys2Proof/Machine/AsmText.lean ====
section
/-! DEFINITION. The assembler's text (R82, R83): one command per line, mnemonics in either case, decimal or `0x` numbers, comments from `;`
on, and the operand shapes of each form. What separates tokens and which characters a quoted message may hold, the spec leaves open (DESIGN CHOICE, log entry 8). -/

namespace Sys2Proof.Machine

/-- The tokens of a line. -/
inductive Token where
  | word (cs : List Char)
  | quoted (bytes : List Byte)
  | comma
  | open_
  | close
deriving DecidableEq, Repr

/-- A line's meaning: one command, or a pseudo-instruction. -/
inductive SourceLine where
  | command (l : AsmLine)
  | pseudo (p : Pseudo)
deriving DecidableEq, Repr

/-- The word collected so far, if there is one, ahead of the tokens after it. `cur` is in reverse. -/
def pushWord (cur : List Char) (ts : List Token) : List Token :=
  if cur = [] then ts else .word cur.reverse :: ts

/-- The tokens of a line up to its comment. `quote` holds the bytes of the quoted message being read, `cur` the word being read, both in
reverse. No tokens for a message that is not closed or holds a character above 255. -/
def lex (quote : Option (List Byte)) (cur : List Char) : List Char → Option (List Token)
  | [] =>
    match quote with
    | none => some (pushWord cur [])
    | some _ => none
  | c :: cs =>
    match quote with
    | some bytes =>
      if c.toNat = 34 then (lex none [] cs).map (.quoted bytes.reverse :: ·)
      else if c.toNat < 256 then lex (some (BitVec.ofNat 8 c.toNat :: bytes)) [] cs
      else none
    | none =>
      if c = ';' then some (pushWord cur [])
      else if c.toNat = 34 then (lex (some []) [] cs).map (pushWord cur)
      else if c = ' ' ∨ c = '\t' then (lex none [] cs).map (pushWord cur)
      else if c = ',' then (lex none [] cs).map fun ts => pushWord cur (.comma :: ts)
      else if c = '[' then (lex none [] cs).map fun ts => pushWord cur (.open_ :: ts)
      else if c = ']' then (lex none [] cs).map fun ts => pushWord cur (.close :: ts)
      else lex none (c :: cur) cs

/-- The value of a digit, 0 to 15. -/
def digitValue (c : Char) : Option Nat :=
  if 48 ≤ c.toNat ∧ c.toNat ≤ 57 then some (c.toNat - 48)
  else if 97 ≤ c.toNat ∧ c.toNat ≤ 102 then some (c.toNat - 87)
  else if 65 ≤ c.toNat ∧ c.toNat ≤ 70 then some (c.toNat - 55)
  else none

/-- The number these digits of the base write after the number `n`. -/
def digits (base n : Nat) : List Char → Option Nat
  | [] => some n
  | c :: cs =>
    match digitValue c with
    | some v => if v < base then digits base (base * n + v) cs else none
    | none => none

/-- A number: decimal, or hex after `0x` (R82). -/
def number : List Char → Option Nat
  | '0' :: 'x' :: c :: cs => digits 16 0 (c :: cs)
  | c :: cs => digits 10 0 (c :: cs)
  | [] => none

/-- One or more numbers with commas between them. -/
def numbers : List Token → Option (List Nat)
  | [.word w] => (number w).map ([·])
  | .word w :: .comma :: ts =>
    match number w, numbers ts with
    | some n, some ns => some (n :: ns)
    | _, _ => none
  | _ => none

/-- A bracketed list of bytes, each below 256. -/
def byteList : List Token → Option (List Byte)
  | [.open_, .close] => some []
  | .open_ :: ts =>
    if ts.getLast? = some .close then
      match numbers ts.dropLast with
      | some ns => if ns.all (· < 256) then some (ns.map (BitVec.ofNat 8)) else none
      | none => none
    else none
  | _ => none

/-- The message operand of MESSAGE: a quoted string or a byte list (R83). -/
def messageOperand : List Token → Option (List Byte)
  | [.quoted bytes] => some bytes
  | ts => byteList ts

/-- The forms without an operand (R82, R83). -/
def plainForm (m : List Char) : Option SourceLine :=
  if m = ['n', 'o', 'p'] then some (.command .nop)
  else if m = ['i', 'n', 'i', 't'] then some (.command .init)
  else if m = ['c', 'l', 'e', 'a', 'r'] then some (.command .clear)
  else if m = ['f', 'i', 'n', 'a', 'l'] then some (.command .final)
  else if m = ['p', 'e', 'r', 'm', 'u', 't', 'e'] then some (.command .permute)
  else if m = ['d', 'i', 'g', 'e', 's', 't'] then some (.pseudo .digest)
  else if m = ['s', 'e', 'r', 'i', 'a', 'l', 'i', 'z', 'e'] then some (.pseudo .serialize)
  else none

/-- The forms with number operands (R82, R83). -/
def numberForm (m : List Char) (ns : List Nat) : Option SourceLine :=
  match ns with
  | [a] =>
    if m = ['s', 'q', 'u', 'e', 'e', 'z', 'e'] then some (.command (.squeeze a))
    else if m = ['a', 'b', 's', 'o', 'r', 'b', 'b'] then some (.pseudo (.absorbB a))
    else if m = ['a', 'b', 's', 'o', 'r', 'b', 'w'] then some (.pseudo (.absorbW a))
    else none
  | [a, b] =>
    if m = ['a', 'b', 's', 'o', 'r', 'b'] then some (.command (.absorb a b))
    else if m = ['g', 'e', 't', 'l', 'a', 'n', 'e'] then some (.command (.getlane a b))
    else if m = ['.', 'c', 'm', 'd'] then some (.command (.cmd a b))
    else none
  | [a, b, c] => if m = ['s', 'e', 't', 'l', 'a', 'n', 'e'] then some (.command (.setlane a b c)) else none
  | _ => none

/-- The forms with a message or a state as operand (R83). -/
def bytesForm (m : List Char) (ts : List Token) : Option SourceLine :=
  if m = ['m', 'e', 's', 's', 'a', 'g', 'e'] then (messageOperand ts).map fun b => .pseudo (.message b)
  else if m = ['h', 'a', 's', 'h'] then
    match ts with
    | [.quoted bytes] => some (.pseudo (.hash bytes))
    | _ => none
  else if m = ['d', 'e', 's', 'e', 'r', 'i', 'a', 'l', 'i', 'z', 'e'] then
    match byteList ts with
    | some b => if b.length = Config.stateBytes then some (.pseudo (.deserialize b)) else none
    | none => none
  else none

/-- The form a mnemonic in lower case and its operands make. -/
def form (m : List Char) (ts : List Token) : Option SourceLine :=
  match ts, numbers ts with
  | [], _ => plainForm m
  | _, some ns => numberForm m ns
  | _, none => bytesForm m ts

/-- A line from its tokens: `some none` for a line with no command. The mnemonic may be in either case (R82). -/
def parseTokens : List Token → Option (Option SourceLine)
  | [] => some none
  | .word m :: ts => (form (m.map Char.toLower) ts).map some
  | _ => none

/-- A line of text (R82). -/
def parseLine (line : List Char) : Option (Option SourceLine) :=
  (lex none [] line).bind parseTokens

/-- The commands of a line; none where the assembler refuses it. -/
def assembleLine (line : List Char) : Option (List Command) :=
  match parseLine line with
  | some none => some []
  | some (some (.command l)) => (assemble l).map ([·])
  | some (some (.pseudo p)) => (expand p).mapM assemble
  | none => none

/-- The commands of a program, its lines in order. -/
def assembleProgram (lines : List (List Char)) : Option (List Command) :=
  (lines.mapM assembleLine).map List.flatten

end Sys2Proof.Machine
end

