-- ==== Sys2Proof/Safety.lean ====
section
/-! DEFINITION. The terms claims use: the invariants of R41, what a safe run is, the reserved words of R75, the ROM generators of R37 and R38. -/

namespace Sys2Proof.Machine

/-- The reachable-state invariants, clause by clause as R41 lists them. -/
structure State.Inv (s : State) : Prop where
  /-- (a) `POS <= 135`. -/
  posInRate : s.pos.toNat ≤ 135
  /-- (b) `PHASE = IDLE` or `PHASE = SQUEEZE` implies `POS = 0`. -/
  posZero : s.phase = .idle ∨ s.phase = .squeeze → s.pos = 0#8
  /-- (c) `BUSY = 1` implies `PHASE != ERROR` and `POS = 0`. -/
  busyPhase : s.busy = true → s.phase ≠ .error ∧ s.pos = 0#8
  /-- (d) `BUSY = 0` implies `ROUND = 0`. -/
  roundIdle : s.busy = false → s.round = 0#5
  /-- (d) `BUSY = 1` implies `ROUND <= 23`. -/
  roundBusy : s.busy = true → s.round.toNat ≤ 23
  /-- (e) `ERRCODE != 0` if and only if `PHASE = ERROR`; that ERRCODE is in 0..4 is its type. -/
  errorCode : s.errcode ≠ .none ↔ s.phase = .error

/-- The run of `k` steps from `s` ends in `s'` with no stop. -/
def Runs (k : Nat) (s s' : State) : Prop := Sys2Proof.core.run k s = .next s'

/-- A state whose digest a host may use, by its check of STATUS (R265): PHASE = SQUEEZE, ERRCODE = 0, and no permutation running. -/
def State.digestValid (s : State) : Prop := s.phase = .squeeze ∧ s.errcode = .none ∧ s.busy = false

/-- The end of a run of a hash operation, which the hardware does not signal (R268): the phase is SQUEEZE, no permutation is running, and among the
commands accepted since INIT are all four SQUEEZEs. -/
def State.HashEnded (s : State) (accepted : List Instr) : Prop :=
  s.phase = .squeeze ∧ s.busy = false ∧ ∀ k, k < 4 → Instr.squeeze k ∈ accepted

/-- The core is about to accept the command `c`, and the host then drives `rest` (R33). -/
def Accepts (s : State) (c : Command) (rest : List HostMove) : Prop :=
  s.host = .command c :: rest ∧ s.busy = false

/-- A reserved word in the words of R75 and R71: OPC is 0x9 to 0xF, or a reserved ARG bit of the opcode's layout is 1. -/
def ReservedWord (w : CmdWord) : Prop :=
  let opc := w.toNat / 4096
  let arg := w.toNat % 4096
  9 ≤ opc ∨ (opc ∈ [0, 1, 2, 4, 6] ∧ arg ≠ 0) ∨ (opc = 3 ∧ 16 ≤ arg) ∨ (opc = 5 ∧ 4 ≤ arg) ∨
    ((opc = 7 ∨ opc = 8) ∧ 32 ≤ arg)

/-- Outside the ERROR phase, accepting the word takes the error entry with code 1 and does nothing else but move the host on (R75, R222). -/
def RaisesIllegal (w : CmdWord) : Prop :=
  ∀ (s : State) (d : DataWord) (rest : List HostMove), Accepts s ⟨w, d⟩ rest → s.phase ≠ .error →
    step s = .next { s with phase := .error, errcode := .illegal, pc := s.pc + 1, host := rest }

/-- One step of the LFSR of R37: prepend 0, fold the bit that fell out into positions 0, 4, 5 and 6. -/
def lfsrStep (r : List Bool) : List Bool :=
  let out := r.getD 7 false
  ((false :: r).mapIdx fun i b => if i = 0 ∨ i = 4 ∨ i = 5 ∨ i = 6 then b != out else b).take 8

/-- `r` after `n` steps from [1,0,0,0,0,0,0,0] (R37). -/
def lfsr : Nat → List Bool
  | 0 => [true, false, false, false, false, false, false, false]
  | n + 1 => lfsrStep (lfsr n)

/-- `rc(t)` (R37). -/
def rcBit (t : Nat) : Bool :=
  if t % 255 = 0 then true else (lfsr (t % 255)).getD 0 false

/-- `RC[i]` as R37 generates it: bit `2^j - 1` is `rc(j + 7*i)` for j in 0..6, every other bit 0. -/
def generatedRoundConstant (i : Nat) : Lane :=
  (List.range 7).foldl (fun v j => if rcBit (j + 7 * i) then v ||| (1#64 <<< (2 ^ j - 1)) else v) 0#64

/-- The position after `t` steps of the walk of R38 from (1, 0): `(x, y) <- (y, (2x + 3y) mod 5)`. -/
def walk : Nat → Coord × Coord
  | 0 => (1, 0)
  | t + 1 => ((walk t).2, 2 * (walk t).1 + 3 * (walk t).2)

end Sys2Proof.Machine
end

