-- ==== Sys2Proof/Certificates/Slice0/Obligations.lean ====
section
/-! DEFINITION. The statements for the provers, each from a numbered rule of the spec. -/

open Sys2Proof Sys2Proof.Machine

/-! ## Reset, the step, the handshake -/

/-- R42 (every row but the ROMs), R251: the state after reset. -/
def Obligations.ResetStateHoldsTheStatedValues : Prop :=
  (∀ x y : Coord, laneAt State.reset.lanes x y = 0#64) ∧
  (∀ i, i < 200 → readByte State.reset.lanes i = some 0#8) ∧
  State.reset.phase = .idle ∧ State.reset.busy = false ∧ State.reset.round = 0#5 ∧ State.reset.pos = 0#8 ∧
  State.reset.errcode = .none ∧ State.reset.result = 0#64 ∧ State.reset.status = 0#32 ∧
  State.reset.cmdReady = true ∧ State.reset.pc = 0

/-- R250: a step with `rst = 1`, in any state, whatever the engine or a command would have done. -/
def Obligations.ResetStepRestoresEveryRegister : Prop :=
  ∀ (s : State) (rest : List HostMove), s.host = .reset :: rest →
    s.cmdReady = false ∧
    step s = .next
      { lanes := Vector.replicate 25 0#64, phase := .idle, busy := false, round := 0#5, pos := 0#8,
        errcode := .none, result := 0#64, pc := 0, host := rest }

/-- R80, R24: an accepted word that decodes to `i` advances pc and runs `i`; a word that is ILLEGAL raises ILLEGAL outside the ERROR
phase and has no effect in it. -/
def Obligations.StepRunsTheDecodedCommand : Prop :=
  ∀ (s : State) (w : CmdWord) (d : DataWord) (rest : List HostMove), Accepts s ⟨w, d⟩ rest →
    (∀ i, decode w d = .ok i → step s = exec i { s with pc := s.pc + 1, host := rest }) ∧
    (∀ e, decode w d = .error e → s.phase ≠ .error →
      step s = .next { s with phase := .error, errcode := .illegal, pc := s.pc + 1, host := rest }) ∧
    (∀ e, decode w d = .error e → s.phase = .error → step s = .next { s with pc := s.pc + 1, host := rest })

/-- R227: the one event of a step, in its priority. -/
def Obligations.StepEventsFollowThePriority : Prop :=
  ∀ s : State,
    (∀ rest, s.host = .reset :: rest → step s = .next { State.reset with host := rest }) ∧
    (s.rst = false → s.busy = true → ∃ rest, step s = engineStep { s with host := rest }) ∧
    (∀ c rest, s.host = .command c :: rest → s.busy = false → step s = accept c rest s) ∧
    (∀ rest, s.host = .wait :: rest → s.busy = false → step s = .next { s with host := rest }) ∧
    (s.host = [] → s.busy = false → step s = .next s)

/-- R33: `cmd_ready` is NOT BUSY outside reset and 0 in it; a command is accepted exactly when it is presented and `cmd_ready = 1`. -/
def Obligations.CommandIsAcceptedExactlyWhenReady : Prop :=
  ∀ s : State,
    (s.rst = false → s.cmdReady = !s.busy) ∧ (s.rst = true → s.cmdReady = false) ∧
    (∀ c rest, s.host = .command c :: rest →
      ((∃ rest', eventOf s = .accept c rest') ↔ s.cmdReady = true)) ∧
    (∀ c rest, eventOf s = .accept c rest → s.cmdReady = true ∧ s.host = .command c :: rest)

/-- R24: the pc counts accepted commands, whatever they do, and restarts at reset. -/
def Obligations.PcCountsAcceptedCommands : Prop :=
  ∀ s t : State, step s = .next t →
    (s.rst = true → t.pc = 0) ∧
    (∀ c rest, Accepts s c rest → t.pc = s.pc + 1) ∧
    (s.rst = false → (∀ c rest, ¬ Accepts s c rest) → t.pc = s.pc)

/-! ## Encoding -/

/-- R76, R75: every word is reserved and rejected, or is selected by exactly one row and decodes to a command of that row. -/
def Obligations.EveryWordSelectsOneRowOrIsIllegal : Prop :=
  ∀ (w : CmdWord) (d : DataWord),
    (ReservedWord w ∧ (∀ o : Op, o.selects w = false) ∧ ∃ e, decode w d = .error e) ∨
    (¬ ReservedWord w ∧ ∃ i, decode w d = .ok i ∧ ∀ o : Op, o.selects w = decide (o = i.op))

/-- Decoding an encoded well-formed command gives it back, every operand at every value its field admits. -/
def Obligations.DecodeOfEncodeIsTheCommand : Prop :=
  ∀ i : Instr, i.wf = true → decode (encode i).word (encode i).data = .ok i

/-- The other direction: a decoded command is well formed and encodes to the word it was read from, with its data operand if it uses one. -/
def Obligations.EncodeOfDecodeIsTheWord : Prop :=
  ∀ (w : CmdWord) (d : DataWord) (i : Instr), decode w d = .ok i →
    i.wf = true ∧ (encode i).word = w ∧ (encode i).data = (if i.op = .absorb ∨ i.op = .setlane then d else 0#64)

/-- R75: the rows select 89 words, and the other 65447 are ILLEGAL. -/
def Obligations.EightyNineWordsAreLegal : Prop :=
  ∃ ws : List CmdWord, ws.Nodup ∧ ws.length = 89 ∧ 65536 - ws.length = 65447 ∧
    ∀ (w : CmdWord) (d : DataWord), w ∈ ws ↔ ∃ i, decode w d = .ok i

/-- R84: the worked encodings, read by the decoder. -/
def Obligations.WorkedEncodingsDecodeAsStated : Prop :=
  (∀ d, decode 0x1000#16 d = .ok .init) ∧
  decode 0x3003#16 0x0000000000636261#64 = .ok (.absorb 3 0x0000000000636261#64) ∧
  (∀ d, decode 0x4000#16 d = .ok .final) ∧
  (∀ d, decode 0x5002#16 d = .ok (.squeeze 2)) ∧
  (∀ d, decode 0x6000#16 d = .ok .permute) ∧
  (∀ d, decode 0x7018#16 d = .ok (.setlane 24 d)) ∧
  (∀ d, decode 0x800B#16 d = .ok (.getlane 11)) ∧
  decode 0x3009#16 0#64 = .ok (.absorb 9 0#64) ∧
  decode 0x1001#16 0#64 = .error .reservedArgBit ∧
  decode 0x9000#16 0#64 = .error .reservedOpcode

/-- R72: two data operands that agree on the bits the command uses give the same step. -/
def Obligations.IgnoredDataBitsHaveNoEffect : Prop :=
  ∀ (s : State) (w : CmdWord) (d d' : DataWord) (rest : List HostMove), s.busy = false →
    (w.toNat / 4096 = 3 → ∀ j, j < w.toNat % 16 → j < 8 → dataByte d j = dataByte d' j) →
    (w.toNat / 4096 = 7 → d = d') →
    step { s with host := .command ⟨w, d⟩ :: rest } = step { s with host := .command ⟨w, d'⟩ :: rest }

/-- R82, the table: for each syntax form the word and the data operand where the operands are in range, and a refusal otherwise; and every line but
`.cmd` assembles to the encoding of a command with a legal operand. That `.cmd` refuses a data operand of more than 64 bits is the model's choice
(log entry 8). -/
def Obligations.AssembledLinesAreLegalCommands : Prop :=
  (assemble .nop = some ⟨0x0000#16, 0#64⟩ ∧ assemble .init = some ⟨0x1000#16, 0#64⟩ ∧
    assemble .clear = some ⟨0x2000#16, 0#64⟩ ∧ assemble .final = some ⟨0x4000#16, 0#64⟩ ∧
    assemble .permute = some ⟨0x6000#16, 0#64⟩) ∧
  (∀ n d, assemble (.absorb n d) =
    if 1 ≤ n ∧ n ≤ 8 ∧ d < 2 ^ (8 * n) then some ⟨0x3000#16 ||| BitVec.ofNat 16 n, BitVec.ofNat 64 d⟩ else none) ∧
  (∀ k, assemble (.squeeze k) = if k ≤ 3 then some ⟨0x5000#16 ||| BitVec.ofNat 16 k, 0#64⟩ else none) ∧
  (∀ x y d, assemble (.setlane x y d) =
    if x ≤ 4 ∧ y ≤ 4 ∧ d < 2 ^ 64 then some ⟨0x7000#16 ||| BitVec.ofNat 16 (5 * y + x), BitVec.ofNat 64 d⟩ else none) ∧
  (∀ x y, assemble (.getlane x y) =
    if x ≤ 4 ∧ y ≤ 4 then some ⟨0x8000#16 ||| BitVec.ofNat 16 (5 * y + x), 0#64⟩ else none) ∧
  (∀ w d, assemble (.cmd w d) =
    if w < 2 ^ 16 ∧ d < 2 ^ 64 then some ⟨BitVec.ofNat 16 w, BitVec.ofNat 64 d⟩ else none) ∧
  (∀ (l : AsmLine) (c : Command), assemble l = some c → (∀ w d, l ≠ .cmd w d) →
    ∃ i, decode c.word c.data = .ok i ∧ encode i = c ∧ i.operandLegal = true) ∧
  (∀ c : Command, assemble (.cmd c.word.toNat c.data.toNat) = some c)

/-! ## The round datapath -/

/-- R101: the defining cases of rotl64 and its bit form. -/
def Obligations.RotlMovesEveryBitUpModulo64 : Prop :=
  ∀ (v : Lane) (n : Nat),
    (n % 64 = 0 → rotl64 v n = v) ∧
    (n % 64 ≠ 0 → rotl64 v n = (v <<< (n % 64)) ||| (v >>> (64 - n % 64))) ∧
    (∀ i, i < 64 → (rotl64 v n).getLsbD i = v.getLsbD ((i + 64 - n % 64) % 64))

/-- R102: the laws and worked values of rotl64. -/
def Obligations.RotlLawsAndWorkedValues : Prop :=
  (∀ v, rotl64 v 0 = v) ∧ (∀ v, rotl64 v 64 = v) ∧
  (∀ v n, 1 ≤ n → n ≤ 63 → rotl64 (rotl64 v n) (64 - n) = v) ∧
  rotl64 0x8000000000000001#64 1 = 0x0000000000000003#64 ∧
  rotl64 0x0123456789ABCDEF#64 4 = 0x123456789ABCDEF0#64 ∧
  rotl64 0x0000000000000001#64 63 = 0x8000000000000000#64 ∧
  (∀ v, rotl64 v 62 = rotl64 v 126)

/-- R123, R124: pi as the table of R124 and as the forward map of R123. -/
def Obligations.PiMovesLanesAsTheTable : Prop :=
  ∀ p : Lanes,
    ([0, 6, 12, 18, 24, 3, 9, 10, 16, 22, 1, 7, 13, 19, 20, 4, 5, 11, 17, 23, 2, 8, 14, 15, 21].map (readLane p) =
      (List.range 25).map (readLane (pi p))) ∧
    (∀ x y : Coord, laneAt (pi p) x y = laneAt p (x + 3 * y) x) ∧
    (∀ x y : Coord, laneAt (pi p) y (2 * x + 3 * y) = laneAt p x y)

/-- R128, R35: a round on the all-zero array leaves RC[i] in lane (0, 0) and 0 in every other lane. -/
def Obligations.RoundOfZeroIsTheRoundConstant : Prop :=
  ∀ (i : Fin 24) (x y : Coord),
    laneAt (Sys2Proof.Machine.round zeroLanes i) x y =
      if x = 0 ∧ y = 0 then
        #v[0x0000000000000001#64, 0x0000000000008082#64, 0x800000000000808A#64, 0x8000000080008000#64,
           0x000000000000808B#64, 0x0000000080000001#64, 0x8000000080008081#64, 0x8000000000008009#64,
           0x000000000000008A#64, 0x0000000000000088#64, 0x0000000080008009#64, 0x000000008000000A#64,
           0x000000008000808B#64, 0x800000000000008B#64, 0x8000000000008089#64, 0x8000000000008003#64,
           0x8000000000008002#64, 0x8000000000000080#64, 0x000000000000800A#64, 0x800000008000000A#64,
           0x8000000080008081#64, 0x8000000000008080#64, 0x0000000080000001#64, 0x8000000080008008#64][i]
      else 0#64

/-- R129: theta, rho and pi are linear over GF(2), iota up to its constant. -/
def Obligations.LinearRoundSteps : Prop :=
  ∀ (a b : Lanes) (i : Fin 24),
    let sum := fun u v : Lanes => lanesOf fun x y => laneAt u x y ^^^ laneAt v x y
    theta (sum a b) = sum (theta a) (theta b) ∧ rho (sum a b) = sum (rho a) (rho b) ∧
    pi (sum a b) = sum (pi a) (pi b) ∧ iota (sum a b) i = sum (iota a i) b

/-- R129: chi is a bijection on each row (a row has finitely many values, so injective is enough). -/
def Obligations.ChiIsInjectiveOnEveryRow : Prop :=
  ∀ (a b : Lanes) (y : Coord), (∀ x, laneAt (chi a) x y = laneAt (chi b) x y) → ∀ x, laneAt a x y = laneAt b x y

/-- R37, R38: the generators reproduce the two ROMs. -/
def Obligations.GeneratorsReproduceTheRoms : Prop :=
  (∀ i : Fin 24, roundConstant i = generatedRoundConstant i.val) ∧ rotationOffset 0 0 = 0 ∧
  (∀ t : Fin 24, rotationOffset (walk t.val).2 (walk t.val).1 = ((t.val + 1) * (t.val + 2) / 2) % 64)

/-- R155: the permutation of the zero state is the array of 95_test_vectors.md V-P1. -/
def Obligations.KeccakOfTheZeroStateIsTheKnownAnswer : Prop :=
  keccakF zeroLanes =
    #v[0xF1258F7940E1DDE7#64, 0x84D5CCF933C0478A#64, 0xD598261EA65AA9EE#64, 0xBD1547306F80494D#64, 0x8B284E056253D057#64,
       0xFF97A42D7F8E6FD4#64, 0x90FEE5A0A44647C4#64, 0x8C5BDA0CD6192E76#64, 0xAD30A6F71B19059C#64, 0x30935AB7D08FFC64#64,
       0xEB5AA93F2317D635#64, 0xA9A6E6260D712103#64, 0x81A57C16DBCF555F#64, 0x43B831CD0347C826#64, 0x01F22F1A11A5569F#64,
       0x05E5635A21D9AE61#64, 0x64BEFEF28CC970F2#64, 0x613670957BC46611#64, 0xB87C5A554FD00ECB#64, 0x8C3EE88A1CCF32C8#64,
       0x940C7922AE3A2614#64, 0x1841F924A2C509E4#64, 0x16F53526E70465C2#64, 0x75F644E97F30A13B#64, 0xEAF1FF7B5CECA249#64]

/-! ## The permutation -/

/-- R152: while BUSY = 1 a step applies one round at ROUND and counts it; a presented command is held. While BUSY = 0 there is no engine step. -/
def Obligations.EngineStepAppliesOneRound : Prop :=
  ∀ s : State,
    (s.rst = false → s.busy = true → ∀ hr : s.round.toNat < 24,
      step s = .next { s with
        lanes := iota (chi (pi (rho (theta s.lanes)))) ⟨s.round.toNat, hr⟩
        round := if s.round.toNat = 23 then 0#5 else s.round + 1#5
        busy := decide (s.round.toNat ≠ 23)
        host := match s.host with
          | .wait :: rest => rest
          | moves => moves }) ∧
    (s.busy = false → ∀ rest, eventOf s ≠ .engine rest)

/-- R153, R33: from BUSY = 1 and ROUND = 0, with no reset driven meanwhile, exactly 24 steps apply KeccakF; until the last, BUSY stays 1 and
no command is accepted; every command the host presents is still there at the end. -/
def Obligations.PermutationCompletesIn24Steps : Prop :=
  ∀ s : State, s.busy = true → s.round = 0#5 → (∀ m ∈ s.host.take 24, m ≠ .reset) →
    (∃ moves, Runs 24 s { s with lanes := keccakF s.lanes, busy := false, round := 0#5, host := moves } ∧
      moves.filter (· ≠ .wait) = s.host.filter (· ≠ .wait)) ∧
    (∀ k, k < 24 → ∃ t, Runs k s t ∧ t.busy = true ∧ t.pc = s.pc ∧ t.lanes = rounds k s.lanes)

/-! ## The commands: encoding, effect, exceptions -/

/-- R200. -/
def Obligations.NopChangesNothing : Prop :=
  (∀ s : State, exec .nop s = .next s) ∧ (∀ d, decode 0x0000#16 d = .ok .nop) ∧
  (∀ w : CmdWord, w.toNat / 4096 = 0 → w.toNat % 4096 ≠ 0 → RaisesIllegal w)

/-- R202. -/
def Obligations.InitZeroesTheStateAndEntersAbsorb : Prop :=
  (∀ s : State, exec .init s = .next { s with
    lanes := Vector.replicate 25 0#64, pos := 0#8, round := 0#5, errcode := .none, result := 0#64, phase := .absorb }) ∧
  (∀ d, decode 0x1000#16 d = .ok .init) ∧
  (∀ w : CmdWord, w.toNat / 4096 = 1 → w.toNat % 4096 ≠ 0 → RaisesIllegal w)

/-- R204. -/
def Obligations.ClearReturnsToTheResetState : Prop :=
  (∀ s : State, exec .clear s = .next { s with
    lanes := Vector.replicate 25 0#64, pos := 0#8, round := 0#5, errcode := .none, result := 0#64, phase := .idle }) ∧
  (∀ s : State, s.busy = false → exec .clear s = .next { State.reset with pc := s.pc, host := s.host }) ∧
  (∀ d, decode 0x2000#16 d = .ok .clear) ∧
  (∀ w : CmdWord, w.toNat / 4096 = 2 → w.toNat % 4096 ≠ 0 → RaisesIllegal w)

/-- R172, R173, R174. -/
def Obligations.AbsorbXorsMessageBytesAtPos : Prop :=
  (∀ (s : State) (n : Nat) (d : DataWord), s.phase = .absorb → 1 ≤ n → n ≤ 8 → s.pos.toNat + n ≤ 136 →
    ∃ a : Lanes,
      (∀ i, readByte a i =
        if s.pos.toNat ≤ i ∧ i < s.pos.toNat + n
        then (readByte s.lanes i).map (· ^^^ d.extractLsb' (8 * (i - s.pos.toNat)) 8)
        else readByte s.lanes i) ∧
      (s.pos.toNat + n ≠ 136 →
        exec (.absorb n d) s = .next { s with lanes := a, pos := BitVec.ofNat 8 (s.pos.toNat + n) }) ∧
      (s.pos.toNat + n = 136 →
        exec (.absorb n d) s = .next { s with lanes := a, pos := 0#8, busy := true, round := 0#5 })) ∧
  (∀ (s : State) (n : Nat) (d : DataWord), s.phase = .idle ∨ s.phase = .squeeze →
    exec (.absorb n d) s = .next { s with phase := .error, errcode := .wrongPhase }) ∧
  (∀ (s : State) (n : Nat) (d : DataWord), s.phase = .absorb → n = 0 ∨ 8 < n →
    exec (.absorb n d) s = .next { s with phase := .error, errcode := .badArg }) ∧
  (∀ (s : State) (n : Nat) (d : DataWord), s.phase = .absorb → 1 ≤ n → n ≤ 8 → 136 < s.pos.toNat + n →
    exec (.absorb n d) s = .next { s with phase := .error, errcode := .overrun }) ∧
  (∀ (s : State) (n : Nat) (d : DataWord), s.phase = .error → exec (.absorb n d) s = .next s) ∧
  (∀ (w : CmdWord) (d : DataWord), w.toNat / 16 = 0x300 → decode w d = .ok (.absorb (w.toNat % 16) d)) ∧
  (∀ w : CmdWord, w.toNat / 4096 = 3 → 16 ≤ w.toNat % 4096 → RaisesIllegal w)

/-- R53: an ABSORB of N bytes is the ABSORB of its first byte and then of the others. -/
def Obligations.AbsorbIsOneByteAfterAnother : Prop :=
  ∀ (s : State) (n : Nat) (d : DataWord), s.phase = .absorb → 2 ≤ n → n ≤ 8 → s.pos.toNat + n ≤ 136 →
    ∃ t, exec (.absorb 1 d) s = .next t ∧ exec (.absorb (n - 1) (d >>> 8)) t = exec (.absorb n d) s

/-- R176. -/
def Obligations.FinalPadsTheBlockAndStartsThePermutation : Prop :=
  (∀ s : State, s.phase = .absorb → s.pos.toNat ≤ 135 →
    ∃ a : Lanes,
      exec .final s = .next { s with lanes := a, pos := 0#8, phase := .squeeze, busy := true, round := 0#5 } ∧
      (s.pos.toNat ≠ 135 →
        readByte a s.pos.toNat = (readByte s.lanes s.pos.toNat).map (· ^^^ 0x06#8) ∧
        readByte a 135 = (readByte s.lanes 135).map (· ^^^ 0x80#8)) ∧
      (s.pos.toNat = 135 → readByte a 135 = (readByte s.lanes 135).map (· ^^^ 0x86#8)) ∧
      (∀ i, i ≠ s.pos.toNat → i ≠ 135 → readByte a i = readByte s.lanes i)) ∧
  (∀ s : State, s.phase = .idle ∨ s.phase = .squeeze →
    exec .final s = .next { s with phase := .error, errcode := .wrongPhase }) ∧
  (∀ s : State, s.phase = .error → exec .final s = .next s) ∧
  (∀ d, decode 0x4000#16 d = .ok .final) ∧
  (∀ w : CmdWord, w.toNat / 4096 = 4 → w.toNat % 4096 ≠ 0 → RaisesIllegal w)

/-- R180. -/
def Obligations.SqueezeReadsADigestWord : Prop :=
  (∀ (s : State) (k : Fin 4), s.phase = .squeeze →
    ∃ v : Lane, exec (.squeeze k.val) s = .next { s with result := v } ∧
      v = laneAt s.lanes ⟨k.val, by omega⟩ 0 ∧ memRead s.lanes (8 * k.val) 8 = some v.toNat) ∧
  (∀ (s : State) (k : Nat), s.phase = .idle ∨ s.phase = .absorb →
    exec (.squeeze k) s = .next { s with phase := .error, errcode := .wrongPhase }) ∧
  (∀ (s : State) (k : Nat), s.phase = .error → exec (.squeeze k) s = .next s) ∧
  (∀ (w : CmdWord) (d : DataWord), w.toNat / 4 = 0x1400 → decode w d = .ok (.squeeze (w.toNat % 4))) ∧
  (∀ w : CmdWord, w.toNat / 4096 = 5 → 4 ≤ w.toNat % 4096 → RaisesIllegal w)

/-- R150. -/
def Obligations.PermuteOnlyStartsTheEngine : Prop :=
  (∀ s : State, s.phase = .idle → exec .permute s = .next { s with busy := true, round := 0#5 }) ∧
  (∀ s : State, s.phase = .absorb ∨ s.phase = .squeeze →
    exec .permute s = .next { s with phase := .error, errcode := .wrongPhase }) ∧
  (∀ s : State, s.phase = .error → exec .permute s = .next s) ∧
  (∀ d, decode 0x6000#16 d = .ok .permute) ∧
  (∀ w : CmdWord, w.toNat / 4096 = 6 → w.toNat % 4096 ≠ 0 → RaisesIllegal w)

/-- R103. -/
def Obligations.SetlaneWritesOneLane : Prop :=
  (∀ (s : State) (x y : Coord) (d : DataWord), s.phase = .idle →
    ∃ a : Lanes, exec (.setlane (5 * y.val + x.val) d) s = .next { s with lanes := a } ∧
      laneAt a x y = d ∧ ∀ x' y' : Coord, (x', y') ≠ (x, y) → laneAt a x' y' = laneAt s.lanes x' y') ∧
  (∀ (s : State) (l : Nat) (d : DataWord), s.phase = .absorb ∨ s.phase = .squeeze →
    exec (.setlane l d) s = .next { s with phase := .error, errcode := .wrongPhase }) ∧
  (∀ (s : State) (l : Nat) (d : DataWord), s.phase = .idle → 24 < l →
    exec (.setlane l d) s = .next { s with phase := .error, errcode := .badArg }) ∧
  (∀ (s : State) (l : Nat) (d : DataWord), s.phase = .error → exec (.setlane l d) s = .next s) ∧
  (∀ (w : CmdWord) (d : DataWord), w.toNat / 32 = 0x380 → decode w d = .ok (.setlane (w.toNat % 32) d)) ∧
  (∀ w : CmdWord, w.toNat / 4096 = 7 → 32 ≤ w.toNat % 4096 → RaisesIllegal w)

/-- R104. -/
def Obligations.GetlaneReadsOneLane : Prop :=
  (∀ (s : State) (x y : Coord), s.phase ≠ .error →
    exec (.getlane (5 * y.val + x.val)) s = .next { s with result := laneAt s.lanes x y }) ∧
  (∀ (s : State) (l : Nat), s.phase ≠ .error → 24 < l →
    exec (.getlane l) s = .next { s with phase := .error, errcode := .badArg }) ∧
  (∀ (s : State) (l : Nat), s.phase = .error → exec (.getlane l) s = .next s) ∧
  (∀ (w : CmdWord) (d : DataWord), w.toNat / 32 = 0x400 → decode w d = .ok (.getlane (w.toNat % 32))) ∧
  (∀ w : CmdWord, w.toNat / 4096 = 8 → 32 ≤ w.toNat % 4096 → RaisesIllegal w)

/-- R104, corner case: in the SQUEEZE phase `GETLANE k, 0` returns what `SQUEEZE k` returns. -/
def Obligations.GetlaneAndSqueezeAgreeInSqueeze : Prop :=
  ∀ (s : State) (k : Nat), s.phase = .squeeze → k < 4 →
    ∃ v, exec (.getlane k) s = .next { s with result := v } ∧ exec (.squeeze k) s = .next { s with result := v }

/-- R58, and the corner cases of R103, R202: repeating a read, a lane write, or a restart changes nothing. -/
def Obligations.RepeatingAnIdempotentCommandChangesNothing : Prop :=
  ∀ (i : Instr) (s t : State), i.op ∈ [.nop, .init, .clear, .squeeze, .setlane, .getlane] →
    exec i s = .next t → exec i t = .next t

/-! ## Frames -/

/-- The frame of NOP, SQUEEZE, PERMUTE and GETLANE, which store nothing: every byte of the state, POS, pc and the host's moves are
unchanged; RESULT is the destination of SQUEEZE and GETLANE only; BUSY and ROUND are written by PERMUTE only; PHASE and ERRCODE
change only together, by an error. -/
def Obligations.FrameOfCommandsThatStoreNothing : Prop :=
  ∀ (i : Instr) (s t : State), i.op ∈ [.nop, .squeeze, .permute, .getlane] → exec i s = .next t →
    (∀ a, readByte t.lanes a = readByte s.lanes a) ∧ t.pos = s.pos ∧ t.pc = s.pc ∧ t.host = s.host ∧
    (i.op = .nop ∨ i.op = .permute → t.result = s.result) ∧
    (i.op ≠ .permute → t.busy = s.busy ∧ t.round = s.round) ∧
    ((t.phase = s.phase ∧ t.errcode = s.errcode) ∨
      (s.phase ≠ .error ∧ t = { s with phase := .error, errcode := t.errcode }))

/-- The frame of ABSORB, FINAL and SETLANE: bytes outside those stored to are unchanged, the address computed as the command's rule forms it
(R51); RESULT, pc and the host's moves are unchanged; SETLANE writes no control register; PHASE changes by FINAL or an error only. -/
def Obligations.FrameOfStoringCommands : Prop :=
  (∀ (s t : State) (n : Nat) (d : DataWord), exec (.absorb n d) s = .next t →
    (∀ a, a < s.pos.toNat ∨ s.pos.toNat + n ≤ a → readByte t.lanes a = readByte s.lanes a) ∧
    t.result = s.result ∧ t.pc = s.pc ∧ t.host = s.host ∧
    ((t.phase = s.phase ∧ t.errcode = s.errcode) ∨
      (s.phase ≠ .error ∧ t = { s with phase := .error, errcode := t.errcode }))) ∧
  (∀ s t : State, exec .final s = .next t →
    (∀ a, a ≠ s.pos.toNat → a ≠ 135 → readByte t.lanes a = readByte s.lanes a) ∧
    t.result = s.result ∧ t.pc = s.pc ∧ t.host = s.host ∧
    (t.errcode = s.errcode ∨ (s.phase ≠ .error ∧ t = { s with phase := .error, errcode := t.errcode }))) ∧
  (∀ (s t : State) (l : Nat) (d : DataWord), exec (.setlane l d) s = .next t →
    (∀ a, a < 8 * l ∨ 8 * l + 8 ≤ a → readByte t.lanes a = readByte s.lanes a) ∧
    t.result = s.result ∧ t.pc = s.pc ∧ t.host = s.host ∧ t.pos = s.pos ∧ t.busy = s.busy ∧ t.round = s.round ∧
    ((t.phase = s.phase ∧ t.errcode = s.errcode) ∨
      (s.phase ≠ .error ∧ t = { s with phase := .error, errcode := t.errcode })))

/-- R23: the capacity bytes 136..199 change only by an engine step, SETLANE, INIT, CLEAR or reset; ABSORB and FINAL never write them. -/
def Obligations.CapacityIsWrittenOnlyAsStated : Prop :=
  ∀ s t : State, s.Inv → step s = .next t → ∀ i, 136 ≤ i → i < 200 →
    readByte t.lanes i ≠ readByte s.lanes i →
      s.rst = true ∨ s.busy = true ∨
      ∃ w d rest j, Accepts s ⟨w, d⟩ rest ∧ decode w d = .ok j ∧ j.op ∈ [.setlane, .init, .clear]

/-- R31: RESULT changes only by GETLANE and SQUEEZE, and by INIT, CLEAR and reset, which set it to 0. -/
def Obligations.ResultChangesOnlyAsStated : Prop :=
  ∀ s t : State, step s = .next t → t.result ≠ s.result →
    (s.rst = true ∧ t.result = 0#64) ∨
    ∃ w d rest j, Accepts s ⟨w, d⟩ rest ∧ decode w d = .ok j ∧
      (j.op ∈ [.getlane, .squeeze] ∨ (j.op ∈ [.init, .clear] ∧ t.result = 0#64))

/-! ## Errors -/

/-- R222: a command accepted outside the ERROR phase that ends in the ERROR phase has changed PHASE and ERRCODE and nothing else. -/
def Obligations.ErrorsArePrecise : Prop :=
  ∀ (s t : State) (c : Command) (rest : List HostMove), Accepts s c rest → s.phase ≠ .error → step s = .next t →
    t.phase = .error →
      t.errcode ≠ .none ∧
      t = { s with phase := .error, errcode := t.errcode, pc := s.pc + 1, host := rest }

/-- R225, R80: which error one accepted command reports, in the order ILLEGAL, WRONG_PHASE, BAD_ARG, OVERRUN, the phases of each
command by the table of R81. -/
def Obligations.FirstErrorInThePriorityIsReported : Prop :=
  ∀ (s : State) (w : CmdWord) (d : DataWord) (rest : List HostMove), Accepts s ⟨w, d⟩ rest → s.phase ≠ .error →
    let wrongPhase : Op → Prop := fun o =>
      ((o = .absorb ∨ o = .final) ∧ s.phase ≠ .absorb) ∨ (o = .squeeze ∧ s.phase ≠ .squeeze) ∨
      ((o = .permute ∨ o = .setlane) ∧ s.phase ≠ .idle)
    let raises : ErrCode → Prop := fun code =>
      step s = .next { s with phase := .error, errcode := code, pc := s.pc + 1, host := rest }
    (ReservedWord w → raises .illegal) ∧
    (∀ i, decode w d = .ok i →
      (wrongPhase i.op → raises .wrongPhase) ∧
      (¬ wrongPhase i.op → i.operandLegal = false → raises .badArg) ∧
      (¬ wrongPhase i.op → i.operandLegal = true →
        (∀ n d', i = .absorb n d' → 136 < s.pos.toNat + n → raises .overrun) ∧
        ((∀ n d', i = .absorb n d' → s.pos.toNat + n ≤ 136) → s.pos.toNat ≤ 135 →
          ∃ t, step s = .next t ∧ t.phase ≠ .error)))

/-- R223: in the ERROR phase exactly NOP, INIT and CLEAR perform their rule; every other word, ILLEGAL words included, only advances the
host's pc. -/
def Obligations.ErrorPhaseIgnoresOtherCommands : Prop :=
  ∀ (s : State) (w : CmdWord) (d : DataWord) (rest : List HostMove), Accepts s ⟨w, d⟩ rest → s.phase = .error →
    (w = 0x0000#16 → step s = exec .nop { s with pc := s.pc + 1, host := rest }) ∧
    (w = 0x1000#16 → step s = exec .init { s with pc := s.pc + 1, host := rest }) ∧
    (w = 0x2000#16 → step s = exec .clear { s with pc := s.pc + 1, host := rest }) ∧
    (w ∉ [0x0000#16, 0x1000#16, 0x2000#16] → step s = .next { s with pc := s.pc + 1, host := rest })

/-- R224: INIT leaves the ERROR phase into ABSORB, CLEAR and reset leave it into IDLE, each with ERRCODE 0 and a zero state; nothing else leaves it. -/
def Obligations.OnlyInitClearAndResetLeaveError : Prop :=
  ∀ s : State, s.phase = .error →
    (∀ d rest, Accepts s ⟨0x1000#16, d⟩ rest →
      ∃ t, step s = .next t ∧ t.phase = .absorb ∧ t.errcode = .none ∧ t.lanes = zeroLanes) ∧
    (∀ d rest, Accepts s ⟨0x2000#16, d⟩ rest →
      ∃ t, step s = .next t ∧ t.phase = .idle ∧ t.errcode = .none ∧ t.lanes = zeroLanes) ∧
    (s.rst = true → ∃ t, step s = .next t ∧ t.phase = .idle ∧ t.errcode = .none ∧ t.lanes = zeroLanes) ∧
    (∀ t, step s = .next t → t.phase ≠ .error →
      s.rst = true ∨ ∃ w d rest, Accepts s ⟨w, d⟩ rest ∧ (w = 0x1000#16 ∨ w = 0x2000#16))

/-- R226, R30: the code of the first error is kept for as long as the ERROR phase lasts. -/
def Obligations.FirstErrorCodeIsKept : Prop :=
  ∀ s t : State, s.phase = .error → step s = .next t → t.phase = .error → t.errcode = s.errcode

/-! ## Status -/

/-- R32: the fields of STATUS and its value at reset, with the encodings of PHASE (R26) and ERRCODE (R220). -/
def Obligations.StatusFieldsCopyTheRegisters : Prop :=
  (∀ s : State,
    s.status.extractLsb' 0 1 = BitVec.ofBool s.busy ∧ s.status.extractLsb' 1 2 = s.phase.code ∧
    s.status.extractLsb' 3 1 = 0#1 ∧ s.status.extractLsb' 4 4 = s.errcode.code ∧
    s.status.extractLsb' 8 5 = s.round ∧ s.status.extractLsb' 13 3 = 0#3 ∧
    s.status.extractLsb' 16 8 = s.pos ∧ s.status.extractLsb' 24 8 = 0#8) ∧
  [Phase.idle, .absorb, .squeeze, .error].map Phase.code = [0#2, 1#2, 2#2, 3#2] ∧
  [ErrCode.none, .illegal, .badArg, .wrongPhase, .overrun].map ErrCode.code = [0#4, 1#4, 2#4, 3#4, 4#4] ∧
  State.reset.status = 0x00000000#32

/-! ## Invariants -/

/-- R41 at the reset state, whatever the host is about to drive. -/
def Obligations.ResetStateMeetsTheInvariants : Prop :=
  ∀ moves : List HostMove, State.Inv { State.reset with host := moves }

/-- R41: every step keeps the invariants, from every state that meets them; so every state reached from reset meets them, whatever the host drives. -/
def Obligations.EveryStepKeepsTheInvariants : Prop :=
  (∀ s t : State, s.Inv → step s = .next t → t.Inv) ∧
  (∀ (moves : List HostMove) (k : Nat) (t : State), Runs k { State.reset with host := moves } t → t.Inv)

/-- R220, R235: from a state that meets the invariants no run ever stops, whatever the host drives: the machine has no fatal condition. -/
def Obligations.NoRunEverStops : Prop :=
  ∀ (k : Nat) (s : State), s.Inv → ∃ t, Runs k s t ∧ t.Inv

/-! ## The byte view -/

/-- R21, R22: byte `8L + j` holds bits `[8j+7 : 8j]` of lane L, and writing a byte writes those 8 bits and no other bit: in the array `written`,
every bit of every lane (u, v) outside those 8 is the bit the array `before` has there. -/
def Obligations.BytesAreLaneBitsLeastSignificantFirst : Prop :=
  ∀ (before : Lanes) (x y : Coord) (j : Fin 8),
    readByte before (8 * (5 * y.val + x.val) + j.val) = some ((laneAt before x y).extractLsb' (8 * j.val) 8) ∧
    (∀ b : Byte, ∃ written : Lanes, writeByte before (8 * (5 * y.val + x.val) + j.val) b = some written ∧
      (∀ k : Nat, k < 8 → (laneAt written x y).getLsbD (8 * j.val + k) = b.getLsbD k) ∧
      (∀ (u v : Coord) (n : Nat), (u, v) ≠ (x, y) ∨ n < 8 * j.val ∨ 8 * j.val + 8 ≤ n →
        (laneAt written u v).getLsbD n = (laneAt before u v).getLsbD n))

/-- R22, R105: serialization and deserialization undo each other. -/
def Obligations.SerializationRoundTrips : Prop :=
  (∀ a : Lanes, deserialize (serialize a) = a) ∧
  (∀ bytes : List Byte, bytes.length = 200 → serialize (deserialize bytes) = bytes)

/-! ## The sponge -/

/-- R170, R171: the padding makes a whole number of blocks, one more than the message fills, with its corner cases. -/
def Obligations.PaddingFillsWholeBlocks : Prop :=
  ∀ m : List Byte,
    (padMessage m).length = 136 * (m.length / 136 + 1) ∧ (padMessage m).take m.length = m ∧
    (m.length % 136 = 135 → padMessage m = m ++ [0x86#8]) ∧
    (m.length % 136 = 0 → padMessage m = m ++ 0x06#8 :: List.replicate 134 0x00#8 ++ [0x80#8])

/-- R83: the chunks of MESSAGE are the message, each of 1 to 8 bytes and none crossing a block boundary; HASH is INIT, those chunks,
FINAL and the four SQUEEZEs. -/
def Obligations.MessageChunksNeverCrossABlock : Prop :=
  ∀ m : List Byte,
    (messageChunks m).flatten = m ∧ ChunksFit 0 (messageChunks m) ∧
    (expand (.hash m)).map assemble =
      (hashCommands (messageChunks m) ++ [Instr.squeeze 0, .squeeze 1, .squeeze 2, .squeeze 3]).map fun i => some (encode i)

/-- R175: for every message and every chunking that crosses no block boundary, from every state with BUSY = 0, INIT, the chunks' ABSORBs and FINAL
raise no error and end, with their engine steps, in the state of R170, having run `n div 136 + 1` permutations of 24 steps; SQUEEZE 0..3 then return
the four little-endian words of `SHA3_256(M)`. The commands after them are still presented. -/
def Obligations.SpongeCommandsComputeSha3 : Prop :=
  ∀ (s : State) (chunks : List (List Byte)) (later : List Instr), s.busy = false → ChunksFit 0 chunks →
    s.host = presentAll (hashCommands chunks ++ later) →
    ∃ t : State,
      Runs (chunks.length + 2 + 24 * (chunks.flatten.length / 136 + 1)) s t ∧ t.digestValid ∧
      t = { lanes := sha3State chunks.flatten, phase := .squeeze, busy := false, round := 0#5, pos := 0#8,
            errcode := .none, result := 0#64, pc := s.pc + chunks.length + 2, host := presentAll later } ∧
      (∀ j u, 1 ≤ j → j ≤ chunks.length + 2 + 24 * (chunks.flatten.length / 136 + 1) → Runs j s u → u.phase ≠ .error) ∧
      (sha3 chunks.flatten).length = 32 ∧
      ∀ k, k < 4 → exec (.squeeze k) t =
        .next { t with result := packBytes (((sha3 chunks.flatten).drop (8 * k)).take 8) }

/-- R201, R203: after INIT nothing of the state before it has any influence. Two states that are not busy and whose hosts drive the same moves, INIT
first, run alike in everything but the host's pc. -/
def Obligations.NothingIsCarriedOverAnInit : Prop :=
  ∀ (s₁ s₂ : State) (d : DataWord) (rest : List HostMove),
    Accepts s₁ ⟨0x1000#16, d⟩ rest → Accepts s₂ ⟨0x1000#16, d⟩ rest →
    ∀ (k : Nat) (t₁ : State), Runs (k + 1) s₁ t₁ → ∃ t₂, Runs (k + 1) s₂ t₂ ∧ { t₂ with pc := t₁.pc } = t₁

/-- R82, the text: a comment from `;` on changes nothing, the mnemonic's case does not matter, and a digit string is read as the decimal number or,
after `0x`, the hex number it writes. -/
def Obligations.AssemblerTextIsReadAsStated : Prop :=
  (∀ line comment : List Char, (∀ c ∈ line, c.toNat ≠ 34) → parseLine (line ++ ';' :: comment) = parseLine line) ∧
  (∀ (m : List Char) (operands : List Token),
    parseTokens (.word (m.map Char.toLower) :: operands) = parseTokens (.word m :: operands)) ∧
  (∀ ds : List Nat, ds ≠ [] → (∀ d ∈ ds, d < 10) →
    number (ds.map Nat.digitChar) = some (ds.foldl (fun n d => 10 * n + d) 0)) ∧
  (∀ ds : List Nat, ds ≠ [] → (∀ d ∈ ds, d < 16) →
    number ('0' :: 'x' :: ds.map Nat.digitChar) = some (ds.foldl (fun n d => 16 * n + d) 0))
end

