-- ==== Sys2Proof/Laws/State.lean ====
section
/-! SUPPORT. One lemma per field per update of the state, each true by rfl, so that no later proof unfolds a record update. -/

namespace Sys2Proof.Machine

/-! ## raiseError -/

@[simp] theorem raiseError_lanes (c : ErrCode) (s : State) : (raiseError c s).lanes = s.lanes := rfl
@[simp] theorem raiseError_phase (c : ErrCode) (s : State) : (raiseError c s).phase = .error := rfl
@[simp] theorem raiseError_busy (c : ErrCode) (s : State) : (raiseError c s).busy = s.busy := rfl
@[simp] theorem raiseError_round (c : ErrCode) (s : State) : (raiseError c s).round = s.round := rfl
@[simp] theorem raiseError_pos (c : ErrCode) (s : State) : (raiseError c s).pos = s.pos := rfl
@[simp] theorem raiseError_errcode (c : ErrCode) (s : State) : (raiseError c s).errcode = c := rfl
@[simp] theorem raiseError_result (c : ErrCode) (s : State) : (raiseError c s).result = s.result := rfl
@[simp] theorem raiseError_pc (c : ErrCode) (s : State) : (raiseError c s).pc = s.pc := rfl
@[simp] theorem raiseError_host (c : ErrCode) (s : State) : (raiseError c s).host = s.host := rfl

/-! ## restart -/

@[simp] theorem restart_lanes (p : Phase) (s : State) : (restart p s).lanes = zeroLanes := rfl
@[simp] theorem restart_phase (p : Phase) (s : State) : (restart p s).phase = p := rfl
@[simp] theorem restart_busy (p : Phase) (s : State) : (restart p s).busy = s.busy := rfl
@[simp] theorem restart_round (p : Phase) (s : State) : (restart p s).round = 0#5 := rfl
@[simp] theorem restart_pos (p : Phase) (s : State) : (restart p s).pos = 0#8 := rfl
@[simp] theorem restart_errcode (p : Phase) (s : State) : (restart p s).errcode = .none := rfl
@[simp] theorem restart_result (p : Phase) (s : State) : (restart p s).result = 0#64 := rfl
@[simp] theorem restart_pc (p : Phase) (s : State) : (restart p s).pc = s.pc := rfl
@[simp] theorem restart_host (p : Phase) (s : State) : (restart p s).host = s.host := rfl

/-! ## startPermutation -/

@[simp] theorem startPermutation_lanes (s : State) : (startPermutation s).lanes = s.lanes := rfl
@[simp] theorem startPermutation_phase (s : State) : (startPermutation s).phase = s.phase := rfl
@[simp] theorem startPermutation_busy (s : State) : (startPermutation s).busy = true := rfl
@[simp] theorem startPermutation_round (s : State) : (startPermutation s).round = 0#5 := rfl
@[simp] theorem startPermutation_pos (s : State) : (startPermutation s).pos = s.pos := rfl
@[simp] theorem startPermutation_errcode (s : State) : (startPermutation s).errcode = s.errcode := rfl
@[simp] theorem startPermutation_result (s : State) : (startPermutation s).result = s.result := rfl
@[simp] theorem startPermutation_pc (s : State) : (startPermutation s).pc = s.pc := rfl
@[simp] theorem startPermutation_host (s : State) : (startPermutation s).host = s.host := rfl

/-! ## setResult -/

@[simp] theorem setResult_lanes (v : Lane) (s : State) : (setResult v s).lanes = s.lanes := rfl
@[simp] theorem setResult_phase (v : Lane) (s : State) : (setResult v s).phase = s.phase := rfl
@[simp] theorem setResult_busy (v : Lane) (s : State) : (setResult v s).busy = s.busy := rfl
@[simp] theorem setResult_round (v : Lane) (s : State) : (setResult v s).round = s.round := rfl
@[simp] theorem setResult_pos (v : Lane) (s : State) : (setResult v s).pos = s.pos := rfl
@[simp] theorem setResult_errcode (v : Lane) (s : State) : (setResult v s).errcode = s.errcode := rfl
@[simp] theorem setResult_result (v : Lane) (s : State) : (setResult v s).result = v := rfl
@[simp] theorem setResult_pc (v : Lane) (s : State) : (setResult v s).pc = s.pc := rfl
@[simp] theorem setResult_host (v : Lane) (s : State) : (setResult v s).host = s.host := rfl

/-! ## setLanes -/

@[simp] theorem setLanes_lanes (a : Lanes) (s : State) : (setLanes a s).lanes = a := rfl
@[simp] theorem setLanes_phase (a : Lanes) (s : State) : (setLanes a s).phase = s.phase := rfl
@[simp] theorem setLanes_busy (a : Lanes) (s : State) : (setLanes a s).busy = s.busy := rfl
@[simp] theorem setLanes_round (a : Lanes) (s : State) : (setLanes a s).round = s.round := rfl
@[simp] theorem setLanes_pos (a : Lanes) (s : State) : (setLanes a s).pos = s.pos := rfl
@[simp] theorem setLanes_errcode (a : Lanes) (s : State) : (setLanes a s).errcode = s.errcode := rfl
@[simp] theorem setLanes_result (a : Lanes) (s : State) : (setLanes a s).result = s.result := rfl
@[simp] theorem setLanes_pc (a : Lanes) (s : State) : (setLanes a s).pc = s.pc := rfl
@[simp] theorem setLanes_host (a : Lanes) (s : State) : (setLanes a s).host = s.host := rfl

/-! ## setPos -/

@[simp] theorem setPos_lanes (p : BitVec 8) (s : State) : (setPos p s).lanes = s.lanes := rfl
@[simp] theorem setPos_phase (p : BitVec 8) (s : State) : (setPos p s).phase = s.phase := rfl
@[simp] theorem setPos_busy (p : BitVec 8) (s : State) : (setPos p s).busy = s.busy := rfl
@[simp] theorem setPos_round (p : BitVec 8) (s : State) : (setPos p s).round = s.round := rfl
@[simp] theorem setPos_pos (p : BitVec 8) (s : State) : (setPos p s).pos = p := rfl
@[simp] theorem setPos_errcode (p : BitVec 8) (s : State) : (setPos p s).errcode = s.errcode := rfl
@[simp] theorem setPos_result (p : BitVec 8) (s : State) : (setPos p s).result = s.result := rfl
@[simp] theorem setPos_pc (p : BitVec 8) (s : State) : (setPos p s).pc = s.pc := rfl
@[simp] theorem setPos_host (p : BitVec 8) (s : State) : (setPos p s).host = s.host := rfl

/-! ## takeCommand -/

@[simp] theorem takeCommand_lanes (r : List HostMove) (s : State) : (takeCommand r s).lanes = s.lanes := rfl
@[simp] theorem takeCommand_phase (r : List HostMove) (s : State) : (takeCommand r s).phase = s.phase := rfl
@[simp] theorem takeCommand_busy (r : List HostMove) (s : State) : (takeCommand r s).busy = s.busy := rfl
@[simp] theorem takeCommand_round (r : List HostMove) (s : State) : (takeCommand r s).round = s.round := rfl
@[simp] theorem takeCommand_pos (r : List HostMove) (s : State) : (takeCommand r s).pos = s.pos := rfl
@[simp] theorem takeCommand_errcode (r : List HostMove) (s : State) : (takeCommand r s).errcode = s.errcode := rfl
@[simp] theorem takeCommand_result (r : List HostMove) (s : State) : (takeCommand r s).result = s.result := rfl
@[simp] theorem takeCommand_pc (r : List HostMove) (s : State) : (takeCommand r s).pc = s.pc + 1 := rfl
@[simp] theorem takeCommand_host (r : List HostMove) (s : State) : (takeCommand r s).host = r := rfl

/-! ## setHost -/

@[simp] theorem setHost_lanes (r : List HostMove) (s : State) : (setHost r s).lanes = s.lanes := rfl
@[simp] theorem setHost_phase (r : List HostMove) (s : State) : (setHost r s).phase = s.phase := rfl
@[simp] theorem setHost_busy (r : List HostMove) (s : State) : (setHost r s).busy = s.busy := rfl
@[simp] theorem setHost_round (r : List HostMove) (s : State) : (setHost r s).round = s.round := rfl
@[simp] theorem setHost_pos (r : List HostMove) (s : State) : (setHost r s).pos = s.pos := rfl
@[simp] theorem setHost_errcode (r : List HostMove) (s : State) : (setHost r s).errcode = s.errcode := rfl
@[simp] theorem setHost_result (r : List HostMove) (s : State) : (setHost r s).result = s.result := rfl
@[simp] theorem setHost_pc (r : List HostMove) (s : State) : (setHost r s).pc = s.pc := rfl
@[simp] theorem setHost_host (r : List HostMove) (s : State) : (setHost r s).host = r := rfl

/-! ## present -/

@[simp] theorem present_lanes (c : Command) (s : State) : (present c s).lanes = s.lanes := rfl
@[simp] theorem present_phase (c : Command) (s : State) : (present c s).phase = s.phase := rfl
@[simp] theorem present_busy (c : Command) (s : State) : (present c s).busy = false := rfl
@[simp] theorem present_round (c : Command) (s : State) : (present c s).round = 0#5 := rfl
@[simp] theorem present_pos (c : Command) (s : State) : (present c s).pos = s.pos := rfl
@[simp] theorem present_errcode (c : Command) (s : State) : (present c s).errcode = s.errcode := rfl
@[simp] theorem present_result (c : Command) (s : State) : (present c s).result = s.result := rfl
@[simp] theorem present_pc (c : Command) (s : State) : (present c s).pc = s.pc := rfl
@[simp] theorem present_host (c : Command) (s : State) : (present c s).host = .command c :: s.host := rfl

/-! ## applyReset -/

@[simp] theorem applyReset_lanes (r : List HostMove) : (applyReset r).lanes = zeroLanes := rfl
@[simp] theorem applyReset_phase (r : List HostMove) : (applyReset r).phase = .idle := rfl
@[simp] theorem applyReset_busy (r : List HostMove) : (applyReset r).busy = false := rfl
@[simp] theorem applyReset_round (r : List HostMove) : (applyReset r).round = 0#5 := rfl
@[simp] theorem applyReset_pos (r : List HostMove) : (applyReset r).pos = 0#8 := rfl
@[simp] theorem applyReset_errcode (r : List HostMove) : (applyReset r).errcode = .none := rfl
@[simp] theorem applyReset_result (r : List HostMove) : (applyReset r).result = 0#64 := rfl
@[simp] theorem applyReset_pc (r : List HostMove) : (applyReset r).pc = 0 := rfl
@[simp] theorem applyReset_host (r : List HostMove) : (applyReset r).host = r := rfl

end Sys2Proof.Machine
end

