-- ==== Sys2Proof/Laws/Checks.lean ====
section
/-! SUPPORT. What the checks of R80 answer, case by case, and what a command can answer altogether. -/

namespace Sys2Proof.Machine

/-! ## The operand checks as numbers -/

@[simp] theorem countLegal_iff (n : Nat) : countLegal n = true ↔ 1 ≤ n ∧ n ≤ 8 := by
  simp [countLegal]

@[simp] theorem laneLegal_iff (l : Nat) : laneLegal l = true ↔ l ≤ 24 := by
  simp [laneLegal]

@[simp] theorem chunkFits_iff (p : BitVec 8) (n : Nat) : chunkFits p n = true ↔ p.toNat + n ≤ 136 := by
  unfold chunkFits; exact decide_eq_true_iff

@[simp] theorem countLegal_eq_false_iff (n : Nat) : countLegal n = false ↔ n = 0 ∨ 8 < n := by
  rw [Bool.eq_false_iff, ne_eq, countLegal_iff]; omega

@[simp] theorem laneLegal_eq_false_iff (l : Nat) : laneLegal l = false ↔ 24 < l := by
  rw [Bool.eq_false_iff, ne_eq, laneLegal_iff]; omega

@[simp] theorem chunkFits_eq_false_iff (p : BitVec 8) (n : Nat) : chunkFits p n = false ↔ 136 < p.toNat + n := by
  rw [Bool.eq_false_iff, ne_eq, chunkFits_iff]; omega

/-! ## The checks -/

variable {o : Op} {argLegal fits : Bool} {rule : State → Host.Outcome State Fault Refusal} {s : State}

/-- In the ERROR phase the command has no effect (R223). -/
theorem checked_error (h : s.phase = .error) : checked o argLegal fits rule s = .next s := by
  simp [checked, h]

/-- Not legal in the phase: WRONG_PHASE (R81). -/
theorem checked_wrongPhase (h : s.phase ≠ .error) (hl : legalIn o s.phase = false) :
    checked o argLegal fits rule s = .next (raiseError .wrongPhase s) := by
  simp [checked, h, hl]

/-- Legal in the phase, operand out of range: BAD_ARG. -/
theorem checked_badArg (h : s.phase ≠ .error) (hl : legalIn o s.phase = true) (ha : argLegal = false) :
    checked o argLegal fits rule s = .next (raiseError .badArg s) := by
  simp [checked, h, hl, ha]

/-- Legal phase and operand, chunk past the end of the rate: OVERRUN. -/
theorem checked_overrun (h : s.phase ≠ .error) (hl : legalIn o s.phase = true) (ha : argLegal = true)
    (hf : fits = false) : checked o argLegal fits rule s = .next (raiseError .overrun s) := by
  simp [checked, h, hl, ha, hf]

/-- Every check passed: the command's own rule. -/
theorem checked_runs (h : s.phase ≠ .error) (hl : legalIn o s.phase = true) (ha : argLegal = true)
    (hf : fits = true) : checked o argLegal fits rule s = rule s := by
  simp [checked, h, hl, ha, hf]

/-- Everything a checked command can do: nothing, an error entry outside the ERROR phase, or its own rule with every check passed. -/
theorem checked_cases (o : Op) (argLegal fits : Bool) (rule : State → Host.Outcome State Fault Refusal) (s : State) :
    (s.phase = .error ∧ checked o argLegal fits rule s = .next s) ∨
    (s.phase ≠ .error ∧ ∃ c, c ≠ .none ∧ checked o argLegal fits rule s = .next (raiseError c s)) ∨
    (s.phase ≠ .error ∧ legalIn o s.phase = true ∧ argLegal = true ∧ fits = true ∧
      checked o argLegal fits rule s = rule s) := by
  by_cases h : s.phase = .error
  · exact .inl ⟨h, checked_error h⟩
  · cases hl : legalIn o s.phase
    · exact .inr (.inl ⟨h, .wrongPhase, by decide, checked_wrongPhase h hl⟩)
    · cases ha : argLegal
      · exact .inr (.inl ⟨h, .badArg, by decide, checked_badArg h hl rfl⟩)
      · cases hf : fits
        · exact .inr (.inl ⟨h, .overrun, by decide, checked_overrun h hl rfl rfl⟩)
        · exact .inr (.inr ⟨h, rfl, rfl, rfl, checked_runs h hl rfl rfl⟩)

end Sys2Proof.Machine
end

