-- ==== Sys2Proof/Laws/Lanes.lean ====
section
/-! SUPPORT. Laws of the state array: lanes by coordinate, the byte view, and what each byte operation leaves of every other byte. -/

namespace Sys2Proof.Machine

/-! ## Lanes by coordinate -/

@[simp] theorem laneX_laneIndex (x y : Coord) : laneX (laneIndex x y) = x := by
  apply Fin.ext; simp only [laneX, laneIndex]; omega

@[simp] theorem laneY_laneIndex (x y : Coord) : laneY (laneIndex x y) = y := by
  apply Fin.ext; simp only [laneY, laneIndex]; omega

@[simp] theorem laneIndex_laneX_laneY (l : Fin 25) : laneIndex (laneX l) (laneY l) = l := by
  apply Fin.ext; simp only [laneX, laneY, laneIndex]; omega

@[simp] theorem laneAt_lanesOf (f : Coord → Coord → Lane) (x y : Coord) : laneAt (lanesOf f) x y = f x y := by
  have h : (lanesOf f)[laneIndex x y] = f (laneX (laneIndex x y)) (laneY (laneIndex x y)) := by
    simp [lanesOf]
  simpa [laneAt] using h

@[simp] theorem laneAt_zeroLanes (x y : Coord) : laneAt zeroLanes x y = 0#64 := by
  simp [laneAt, zeroLanes]

/-- Two lane arrays with the same lane at every coordinate are equal. -/
theorem lanes_ext {a b : Lanes} (h : ∀ x y, laneAt a x y = laneAt b x y) : a = b := by
  apply Vector.ext
  intro l hl
  simpa [laneAt] using h (laneX ⟨l, hl⟩) (laneY ⟨l, hl⟩)

/-! ## Bytes -/

/-- The lane with byte `j` replaced holds the new byte at `j` and its own bytes elsewhere (R22). -/
theorem laneByte_setLaneByte (v : Lane) (b : Byte) {j k : Nat} (hj : j < 8) (hk : k < 8) :
    laneByte (setLaneByte v j b) k = if k = j then b else laneByte v k := by
  apply BitVec.eq_of_getLsbD_eq
  intro i hi
  have hff : ∀ n, (0xFF#64).getLsbD n = decide (n < 8) := by
    intro n
    rw [show (0xFF#64) = (BitVec.allOnes 8).setWidth 64 by decide, BitVec.getLsbD_setWidth, BitVec.getLsbD_allOnes]
    by_cases h : n < 8
    · simp [h, show n < 64 by omega]
    · simp [h]
  simp only [laneByte, setLaneByte, BitVec.getLsbD_extractLsb', BitVec.getLsbD_or, BitVec.getLsbD_and, BitVec.getLsbD_not,
    BitVec.getLsbD_shiftLeft, BitVec.getLsbD_setWidth, hff, apply_ite (fun w : Byte => w.getLsbD i)]
  have hlt : 8 * k + i < 64 := by omega
  by_cases e : k = j
  · subst e; simp [hi, hlt, show i < 64 by omega]
  · by_cases hkj : k < j
    · simp [e, hi, hlt, show 8 * k + i < 8 * j by omega]
    · simp [e, hi, hlt, show ¬ 8 * k + i < 8 * j by omega, show ¬ 8 * k + i - 8 * j < 8 by omega,
        BitVec.getLsbD_of_ge b (8 * k + i - 8 * j) (by omega)]

/-- Two lanes with the same eight bytes are equal. -/
theorem laneByte_ext {v w : Lane} (h : ∀ j < 8, laneByte v j = laneByte w j) : v = w := by
  apply BitVec.eq_of_getLsbD_eq
  intro i hi
  have := congrArg (fun b : Byte => b.getLsbD (i % 8)) (h (i / 8) (by omega))
  simp only [laneByte, BitVec.getLsbD_extractLsb', show i % 8 < 8 by omega, decide_true, Bool.true_and,
    show 8 * (i / 8) + i % 8 = i by omega] at this
  exact this

/-- Inside the state byte space a byte reads as the lane's byte (R22). -/
theorem readByte_of_lt (a : Lanes) {i : Nat} (h : i < 200) :
    readByte a i = some (laneByte a[i / 8] (i % 8)) := by simp [readByte, h]

/-- Outside the state byte space there is no byte (R50). -/
theorem readByte_of_ge (a : Lanes) {i : Nat} (h : 200 ≤ i) : readByte a i = none := by
  simp [readByte]; omega

/-- Two state arrays with the same bytes are equal. -/
theorem lanes_ext_bytes {a b : Lanes} (h : ∀ i < 200, readByte a i = readByte b i) : a = b := by
  apply Vector.ext
  intro l hl
  apply laneByte_ext
  intro j hj
  have := h (8 * l + j) (by omega)
  simpa [readByte_of_lt _ (show 8 * l + j < 200 by omega), show (8 * l + j) / 8 = l by omega,
    show (8 * l + j) % 8 = j by omega] using this

/-- A byte write inside the state byte space answers the array that differs in that byte alone. -/
theorem writeByte_spec (a : Lanes) {i : Nat} (b : Byte) (h : i < 200) :
    ∃ a', writeByte a i b = some a' ∧ ∀ k, readByte a' k = if k = i then some b else readByte a k := by
  refine ⟨a.set (i / 8) (setLaneByte a[i / 8] (i % 8) b), by simp [writeByte, h], fun k => ?_⟩
  by_cases hk : k < 200
  · rw [readByte_of_lt _ hk, readByte_of_lt _ hk]
    by_cases hl : i / 8 = k / 8
    · have : (a.set (i / 8) (setLaneByte a[i / 8] (i % 8) b))[k / 8] = setLaneByte a[k / 8] (i % 8) b := by
        simp [← hl]
      rw [this, laneByte_setLaneByte _ _ (by omega) (by omega)]
      by_cases e : k % 8 = i % 8
      · simp [show k = i by omega]
      · simp [e, show ¬ k = i by rintro rfl; exact e rfl]
    · have hne : ¬ k = i := by rintro rfl; exact hl rfl
      simp [hl, hne]
  · have hne : ¬ k = i := by omega
    simp [readByte_of_ge _ (by omega : 200 ≤ k), hne]

/-- XORing a byte inside the state byte space changes that byte alone. -/
theorem xorByte_spec (a : Lanes) {i : Nat} (b : Byte) (h : i < 200) :
    ∃ a', xorByte a i b = some a' ∧
      ∀ k, readByte a' k = if k = i then (readByte a k).map (· ^^^ b) else readByte a k := by
  obtain ⟨a', ha, hr⟩ := writeByte_spec a (laneByte a[i / 8] (i % 8) ^^^ b) h
  refine ⟨a', by simpa [xorByte, readByte_of_lt a h] using ha, fun k => ?_⟩
  rw [hr k]
  split
  · next e => subst e; simp [readByte_of_lt a h]
  · rfl

/-- Outside the state byte space there is no byte to XOR. -/
theorem xorByte_of_ge (a : Lanes) {i : Nat} (b : Byte) (h : 200 ≤ i) : xorByte a i b = none := by
  simp [xorByte, readByte_of_ge a h]

/-- XORing n data bytes in at `base` changes exactly the bytes `base .. base + n - 1` (R172). -/
theorem xorBytes_spec (a : Lanes) (base : Nat) (d : DataWord) (n : Nat) (h : base + n ≤ 200) :
    ∃ a', xorBytes a base d n = some a' ∧
      ∀ k, readByte a' k =
        if base ≤ k ∧ k < base + n then (readByte a k).map (· ^^^ dataByte d (k - base)) else readByte a k := by
  induction n with
  | zero => exact ⟨a, rfl, fun k => by simp [show ¬ (base ≤ k ∧ k < base) by omega]⟩
  | succ n ih =>
    obtain ⟨a1, h1, r1⟩ := ih (by omega)
    obtain ⟨a2, h2, r2⟩ := xorByte_spec a1 (dataByte d n) (show base + n < 200 by omega)
    refine ⟨a2, by simp [xorBytes, h1, h2], fun k => ?_⟩
    rw [r2 k, r1 k]
    by_cases e : k = base + n
    · subst e; simp
    · by_cases hk : base ≤ k ∧ k < base + n
      · simp [e, hk, show k < base + (n + 1) by omega]
      · simp [e, hk, show ¬ (base ≤ k ∧ k < base + (n + 1)) by omega]

/-- FINAL's padding XORs 0x06 into byte `p` and 0x80 into byte 135, a net 0x86 where they are one byte (R176). -/
theorem xorPadding_spec (a : Lanes) {p : Nat} (h : p < 200) :
    ∃ a', xorPadding a p = some a' ∧
      ∀ k, readByte a' k =
        if k = p then (readByte a k).map (· ^^^ (if p = 135 then 0x86#8 else 0x06#8))
        else if k = 135 then (readByte a k).map (· ^^^ 0x80#8) else readByte a k := by
  obtain ⟨a1, h1, r1⟩ := xorByte_spec a Config.suffix h
  obtain ⟨a2, h2, r2⟩ := xorByte_spec a1 Config.padEnd (show Config.rate - 1 < 200 by decide)
  refine ⟨a2, by simp only [xorPadding, h1, Option.bind_some]; exact h2, fun k => ?_⟩
  rw [r2 k, r1 k]
  simp only [show Config.rate - 1 = 135 from rfl, Config.suffix, Config.padEnd]
  by_cases e : k = p
  · subst e
    by_cases e2 : k = 135
    · subst e2
      cases readByte a 135 <;> simp [BitVec.xor_assoc]
    · simp [e2]
  · simp [e]

/-- Outside the state byte space there is no byte to pad. -/
theorem xorPadding_of_ge (a : Lanes) {p : Nat} (h : 200 ≤ p) : xorPadding a p = none := by
  simp [xorPadding, xorByte_of_ge a _ h]

/-- A lane write inside the array answers the array that differs in that lane alone. -/
theorem writeLane_spec (a : Lanes) {l : Nat} (v : Lane) (h : l < 25) :
    ∃ a', writeLane a l v = some a' ∧ ∀ k, readLane a' k = if k = l then some v else readLane a k := by
  refine ⟨a.set l v, by simp [writeLane, h], fun k => ?_⟩
  by_cases hk : k < 25
  · by_cases e : l = k
    · subst e; simp [readLane, hk]
    · simp [readLane, hk, e, Ne.symm e]
  · simp [readLane, hk, show ¬ k = l by omega]

/-- A lane by linear index is the lane by coordinate (R9). -/
theorem readLane_eq_laneAt (a : Lanes) (x y : Coord) : readLane a (5 * y.val + x.val) = some (laneAt a x y) := by
  have : 5 * y.val + x.val < 25 := by omega
  simp [readLane, this, laneAt, laneIndex]

/-- The bytes of a lane read by index are the bytes `8L .. 8L+7` of the byte view (R21). -/
theorem readByte_of_readLane {a : Lanes} {l : Nat} {v : Lane} (h : readLane a l = some v) {j : Nat} (hj : j < 8) :
    readByte a (8 * l + j) = some (laneByte v j) := by
  unfold readLane at h
  split at h
  · next hl =>
    cases h
    simp [readByte_of_lt a (show 8 * l + j < 200 by omega), show (8 * l + j) / 8 = l by omega,
      show (8 * l + j) % 8 = j by omega]
  · cases h

/-! ## Bytes of numbers and of the whole state -/

/-- Byte `j` of the packed number is the list's byte `j` (R52, R83). -/
theorem byte_packBytes : ∀ (l : List Byte) {j : Nat} (h : j < l.length), j < 8 → (packBytes l).extractLsb' (8 * j) 8 = l[j]
  | [], j, h, _ => by simp at h
  | b :: bs, j, h, h8 => by
    apply BitVec.eq_of_getLsbD_eq
    intro i hi
    rw [BitVec.getLsbD_extractLsb', packBytes, BitVec.getLsbD_or, BitVec.getLsbD_setWidth, BitVec.getLsbD_shiftLeft]
    cases j with
    | zero => simp [hi, show i < 64 by omega, -BitVec.getLsbD_eq_getElem]
    | succ j =>
      have ih := congrArg (fun v : Byte => v.getLsbD i) (byte_packBytes bs (j := j) (by simpa using h) (by omega))
      simp only [BitVec.getLsbD_extractLsb', hi, decide_true, Bool.true_and] at ih
      simp only [List.getElem_cons_succ, ← ih]
      rw [BitVec.getLsbD_of_ge b _ (by omega)]
      simp [hi, show 8 * (j + 1) + i < 64 by omega, show ¬ 8 * (j + 1) + i < 8 by omega,
        show 8 * (j + 1) + i - 8 = 8 * j + i by omega, -BitVec.getLsbD_eq_getElem]

/-- The number packed from `n` bytes is below `2 ^ (8n)` (R82, R83). -/
theorem packBytes_lt : ∀ l : List Byte, (packBytes l).toNat < 2 ^ (8 * l.length)
  | [] => by simp [packBytes]
  | b :: bs => by
    have ih := packBytes_lt bs
    simp only [packBytes, BitVec.toNat_or, BitVec.toNat_setWidth, BitVec.toNat_shiftLeft]
    apply Nat.or_lt_two_pow
    · calc b.toNat % 2 ^ 64 ≤ b.toNat := Nat.mod_le _ _
        _ < 2 ^ 8 := b.isLt
        _ ≤ _ := Nat.pow_le_pow_right (by omega) (by simp)
    · calc _ ≤ (packBytes bs).toNat <<< 8 := Nat.mod_le _ _
        _ = (packBytes bs).toNat * 2 ^ 8 := Nat.shiftLeft_eq _ _
        _ < 2 ^ (8 * bs.length) * 2 ^ 8 := by omega
        _ = _ := by rw [← Nat.pow_add]; congr 1

@[simp] theorem serialize_length (a : Lanes) : (serialize a).length = 200 := by simp [serialize]

/-- Byte `i` of the serialized state is `S[i]` (R22). -/
theorem serialize_getElem? (a : Lanes) (i : Nat) : (serialize a)[i]? = readByte a i := by
  by_cases h : i < 200
  · rw [readByte_of_lt _ h]
    simp [serialize, h, Vector.getD, show i / 8 < 25 by omega]
  · rw [readByte_of_ge _ (by omega), List.getElem?_eq_none (by rw [serialize_length]; omega)]

/-- `S[i]` of the deserialized state is the list's byte `i` (R22). -/
theorem readByte_deserialize {l : List Byte} (hl : l.length = 200) (i : Nat) : readByte (deserialize l) i = l[i]? := by
  by_cases h : i < 200
  · rw [readByte_of_lt _ h]
    simp only [deserialize, Vector.getElem_ofFn, laneByte]
    rw [byte_packBytes _ (by simp; omega) (by omega)]
    simp [show 8 * (i / 8) + i % 8 = i by omega, hl, h]
  · rw [readByte_of_ge _ (by omega), List.getElem?_eq_none (by omega)]

end Sys2Proof.Machine
end

