-- ==== Sys2Proof/Laws/Commands.lean ====
section
/-! SUPPORT. Each command's own rule, said once: the state it answers. Callers cite these and do not unfold the rules. -/

namespace Sys2Proof.Machine

/-- ABSORB's rule short of the end of the block (R172). -/
theorem absorbRule_partial {s : State} {n : Nat} {a : Lanes} {d : DataWord}
    (ha : xorBytes s.lanes s.pos.toNat d n = some a) (h : s.pos.toNat + n ≠ 136) :
    absorbRule n d s = .next (setPos (s.pos + BitVec.ofNat 8 n) (setLanes a s)) := by
  simp [absorbRule, ha, Config.rate, h]

/-- ABSORB's rule at the end of the block (R173). -/
theorem absorbRule_full {s : State} {n : Nat} {a : Lanes} {d : DataWord}
    (ha : xorBytes s.lanes s.pos.toNat d n = some a) (h : s.pos.toNat + n = 136) :
    absorbRule n d s = .next (startPermutation (setPos 0#8 (setLanes a s))) := by
  simp [absorbRule, ha, Config.rate, h]

/-- FINAL's rule where POS names a byte of the state (R176). -/
theorem finalRule_next {s : State} {a : Lanes} (ha : xorPadding s.lanes s.pos.toNat = some a) :
    finalRule s = .next (startPermutation { setPos 0#8 (setLanes a s) with phase := .squeeze }) := by
  simp [finalRule, ha]

/-- SETLANE's rule where the lane exists (R103). -/
theorem setlaneRule_next {s : State} {l : Nat} {d : DataWord} (h : l < 25) :
    setlaneRule l d s = .next (setLanes (s.lanes.set l d) s) := by
  simp [setlaneRule, writeLane, h]

/-- GETLANE's rule where the lane exists (R104). -/
theorem getlaneRule_next {s : State} {l : Nat} (h : l < 25) :
    getlaneRule l s = .next (setResult s.lanes[l] s) := by
  simp [getlaneRule, readLane, h]

/-- SQUEEZE's rule where the lane exists (R180). -/
theorem squeezeRule_next {s : State} {k : Nat} (h : k < 25) :
    squeezeRule k s = .next (setResult s.lanes[k] s) := by
  simp [squeezeRule, readLane, h]

/-- The only state ABSORB's rule can answer. -/
theorem absorbRule_inv {s t : State} {n : Nat} {d : DataWord} (h : absorbRule n d s = .next t) :
    ∃ a, xorBytes s.lanes s.pos.toNat d n = some a ∧
      ((s.pos.toNat + n = 136 ∧ t = startPermutation (setPos 0#8 (setLanes a s))) ∨
       (s.pos.toNat + n ≠ 136 ∧ t = setPos (s.pos + BitVec.ofNat 8 n) (setLanes a s))) := by
  cases ha : xorBytes s.lanes s.pos.toNat d n with
  | none => simp [absorbRule, ha] at h
  | some a =>
    refine ⟨a, rfl, ?_⟩
    by_cases hf : s.pos.toNat + n = 136
    · rw [absorbRule_full ha hf] at h; cases h; exact .inl ⟨hf, rfl⟩
    · rw [absorbRule_partial ha hf] at h; cases h; exact .inr ⟨hf, rfl⟩

/-- The only state FINAL's rule can answer. -/
theorem finalRule_inv {s t : State} (h : finalRule s = .next t) :
    ∃ a, xorPadding s.lanes s.pos.toNat = some a ∧
      t = startPermutation { setPos 0#8 (setLanes a s) with phase := .squeeze } := by
  cases ha : xorPadding s.lanes s.pos.toNat with
  | none => simp [finalRule, ha] at h
  | some a => rw [finalRule_next ha] at h; cases h; exact ⟨a, rfl, rfl⟩

/-- The only state SETLANE's rule can answer. -/
theorem setlaneRule_inv {s t : State} {l : Nat} {d : DataWord} (h : setlaneRule l d s = .next t) :
    ∃ a, writeLane s.lanes l d = some a ∧ t = setLanes a s := by
  unfold setlaneRule at h; split at h <;> cases h; exact ⟨_, ‹_›, rfl⟩

/-- The only state GETLANE's rule can answer. -/
theorem getlaneRule_inv {s t : State} {l : Nat} (h : getlaneRule l s = .next t) :
    ∃ v, readLane s.lanes l = some v ∧ t = setResult v s := by
  unfold getlaneRule at h; split at h <;> cases h; exact ⟨_, ‹_›, rfl⟩

/-- The only state SQUEEZE's rule can answer. -/
theorem squeezeRule_inv {s t : State} {k : Nat} (h : squeezeRule k s = .next t) :
    ∃ v, readLane s.lanes k = some v ∧ t = setResult v s := by
  unfold squeezeRule at h; split at h <;> cases h; exact ⟨_, ‹_›, rfl⟩

end Sys2Proof.Machine
end

