-- ==== Sys2Proof/Laws/Datapath.lean ====
section
/-! SUPPORT. The lane each round step leaves at a coordinate, as the rules give it (R121 to R126), and the bit form of rotl64. -/

namespace Sys2Proof.Machine

@[simp] theorem laneAt_theta (a : Lanes) (x y : Coord) :
    laneAt (theta a) x y = laneAt a x y ^^^ (columnParity a (x + 4) ^^^ rotl64 (columnParity a (x + 1)) 1) := by
  simp only [theta, laneAt_lanesOf]

@[simp] theorem laneAt_rho (a : Lanes) (x y : Coord) :
    laneAt (rho a) x y = rotl64 (laneAt a x y) (rotationOffset y x) := by
  simp only [rho, laneAt_lanesOf]

@[simp] theorem laneAt_pi (a : Lanes) (x y : Coord) : laneAt (pi a) x y = laneAt a (x + 3 * y) x := by
  simp only [pi, laneAt_lanesOf]

@[simp] theorem laneAt_chi (a : Lanes) (x y : Coord) :
    laneAt (chi a) x y = laneAt a x y ^^^ (~~~(laneAt a (x + 1) y) &&& laneAt a (x + 2) y) := by
  simp only [chi, laneAt_lanesOf]

@[simp] theorem laneAt_iota (a : Lanes) (i : Fin 24) (x y : Coord) :
    laneAt (iota a i) x y = if x = 0 ∧ y = 0 then laneAt a x y ^^^ roundConstant i else laneAt a x y := by
  simp only [iota, laneAt_lanesOf]

/-- The amount matters modulo 64 only (R10). -/
theorem rotl64_mod (v : Lane) (n : Nat) : rotl64 v n = rotl64 v (n % 64) := by
  simp [rotl64]

@[simp] theorem rotl64_zero_amount (v : Lane) : rotl64 v 0 = v := by
  simp [rotl64]

@[simp] theorem rotl64_zero (n : Nat) : rotl64 0#64 n = 0#64 := by
  unfold rotl64; split <;> simp

/-- No round leaves the array as it is. -/
@[simp] theorem rounds_zero (a : Lanes) : rounds 0 a = a := rfl

/-- One more round, at the next index. -/
theorem rounds_succ (a : Lanes) {k : Nat} (h : k < 24) : rounds (k + 1) a = round (rounds k a) ⟨k, h⟩ := by
  have hk : k < (List.finRange 24).length := by simpa using h
  simp only [rounds]
  rw [List.take_add_one, List.getElem?_eq_getElem hk]
  simp [List.foldl_append]

end Sys2Proof.Machine
end

