-- ==== Sys2Proof/Laws/Decode.lean ====
section
/-! SUPPORT. The decoder's laws: which words a row selects, that rows are disjoint, and what decoding answers (R73 to R76). -/

namespace Sys2Proof

/-- The number of named ARG bits, all of them low (R71). -/
def Op.argBits : Op → Nat
  | .absorb => 4
  | .squeeze => 2
  | .setlane => 5
  | .getlane => 5
  | _ => 0

/-- Masking off the low `k` bits, as a number. -/
theorem toNat_and_highMask (w : CmdWord) (k : Nat) : (w &&& (BitVec.allOnes 16 <<< k)).toNat = w.toNat / 2 ^ k * 2 ^ k := by
  have : w &&& (BitVec.allOnes 16 <<< k) = (w >>> k) <<< k := by
    apply BitVec.eq_of_getLsbD_eq
    intro i hi
    by_cases h : i < k
    · simp [hi, h]
    · have h1 : k + (i - k) = i := by omega
      have h2 : i - k < 16 := by omega
      simp only [BitVec.getLsbD_and, BitVec.getLsbD_shiftLeft, BitVec.getLsbD_allOnes, BitVec.getLsbD_ushiftRight]
      simp [hi, h, h1, h2, -BitVec.getLsbD_eq_getElem]
  rw [this]
  simp only [BitVec.toNat_shiftLeft, BitVec.toNat_ushiftRight, Nat.shiftRight_eq_div_pow, Nat.shiftLeft_eq]
  have h1 : w.toNat / 2 ^ k * 2 ^ k ≤ w.toNat := Nat.div_mul_le_self _ _
  have h2 := w.isLt
  exact Nat.mod_eq_of_lt (by omega)

/-- A word selects a row exactly when its bits above the row's named ARG bits are the row's (R74). -/
theorem selects_iff (o : Op) (w : CmdWord) :
    o.selects w = true ↔ w.toNat / 2 ^ o.argBits = o.pattern.toNat / 2 ^ o.argBits := by
  have hm : o.mask = BitVec.allOnes 16 <<< o.argBits := by cases o <;> decide
  have hp : o.pattern.toNat = o.pattern.toNat / 2 ^ o.argBits * 2 ^ o.argBits := by cases o <;> decide
  rw [Op.selects, beq_iff_eq, ← BitVec.toNat_inj, hm, toNat_and_highMask]
  rw (occs := [1]) [hp]
  exact Nat.mul_left_inj (by positivity)

/-- The rows are disjoint: a word selects at most one (R74). -/
theorem selects_unique {o p : Op} {w : CmdWord} (ho : o.selects w = true) (hp : p.selects w = true) : o = p := by
  rw [selects_iff] at ho hp
  cases o <;> cases p <;> first | rfl | (exfalso; simp [Op.argBits, Op.pattern] at ho hp; omega)

/-- The decoder reads the operands of the row the word selects. -/
theorem decode_of_selects {o : Op} {w : CmdWord} (h : o.selects w = true) (d : DataWord) :
    decode w d = .ok (o.instr w d) := by
  unfold decode
  have hm : o ∈ opcodeMap := by cases o <;> decide
  cases hf : opcodeMap.find? (fun o => o.selects w) with
  | none => simp only [List.find?_eq_none] at hf; exact absurd h (hf o hm)
  | some p =>
    have hp : p.selects w = true := by simpa using List.find?_some hf
    simp only [selects_unique hp h]

/-- A word that selects no row is rejected. -/
theorem decode_of_not_selects {w : CmdWord} (h : ∀ o : Op, o.selects w = false) (d : DataWord) :
    ∃ e, decode w d = .error e := by
  unfold decode
  have hf : opcodeMap.find? (fun o => o.selects w) = none := by
    simp [List.find?_eq_none, h]
  rw [hf]; exact ⟨_, rfl⟩

/-- A decoded command's row is the row the word selects. -/
theorem decode_ok {w : CmdWord} {d : DataWord} {i : Instr} (h : decode w d = .ok i) :
    i.op.selects w = true ∧ i = i.op.instr w d := by
  unfold decode at h
  split at h
  · next o ho =>
    cases h
    have : (o.instr w d).op = o := by cases o <;> rfl
    rw [this]; exact ⟨by simpa using List.find?_some ho, rfl⟩
  · cases h

/-- N as a number (R73). -/
theorem fieldN_eq (w : CmdWord) : fieldN w = w.toNat % 16 := by simp [fieldN, BitVec.extractLsb'_toNat]

/-- K as a number (R73). -/
theorem fieldK_eq (w : CmdWord) : fieldK w = w.toNat % 4 := by simp [fieldK, BitVec.extractLsb'_toNat]

/-- L as a number (R73). -/
theorem fieldL_eq (w : CmdWord) : fieldL w = w.toNat % 32 := by simp [fieldL, BitVec.extractLsb'_toNat]

end Sys2Proof
end

