-- ==== Sys2Proof/Laws/Exec.lean ====
section
/-! SUPPORT. Everything an accepted command can do, said once: the inversion of `exec`. Claims about commands cite it and split its cases. -/

namespace Sys2Proof.Machine

/-- Everything a checked command's next state can be. -/
theorem checked_inv {o : Op} {a f : Bool} {rule : State → Host.Outcome State Fault Refusal} {s t : State}
    (h : checked o a f rule s = .next t) :
    (s.phase = .error ∧ t = s) ∨ (s.phase ≠ .error ∧ ∃ c, c ≠ .none ∧ t = raiseError c s) ∨
    (s.phase ≠ .error ∧ legalIn o s.phase = true ∧ a = true ∧ f = true ∧ rule s = .next t) := by
  rcases checked_cases o a f rule s with ⟨hp, e⟩ | ⟨hp, c, hc, e⟩ | ⟨hp, hl, ha, hf, e⟩ <;> rw [e] at h
  · exact .inl ⟨hp, (Host.Outcome.next.inj h).symm⟩
  · exact .inr (.inl ⟨hp, c, hc, (Host.Outcome.next.inj h).symm⟩)
  · exact .inr (.inr ⟨hp, hl, ha, hf, h⟩)

/-- Everything a command's next state can be: unchanged (NOP, or the ERROR phase), an error entry outside the ERROR phase, or the effect of
the command's own rule with its checks passed. -/
theorem exec_inv {i : Instr} {s t : State} (h : exec i s = .next t) :
    ((i = .nop ∨ s.phase = .error) ∧ t = s) ∨
    (s.phase ≠ .error ∧ i.op ∉ [Op.nop, .init, .clear] ∧ ∃ c, c ≠ .none ∧ t = raiseError c s) ∨
    (i = .init ∧ t = restart .absorb s) ∨
    (i = .clear ∧ t = restart .idle s) ∨
    (s.phase = .absorb ∧ ∃ n d a, i = .absorb n d ∧ 1 ≤ n ∧ n ≤ 8 ∧ s.pos.toNat + n ≤ 136 ∧
      xorBytes s.lanes s.pos.toNat d n = some a ∧
      ((s.pos.toNat + n = 136 ∧ t = startPermutation (setPos 0#8 (setLanes a s))) ∨
       (s.pos.toNat + n ≠ 136 ∧ t = setPos (s.pos + BitVec.ofNat 8 n) (setLanes a s)))) ∨
    (s.phase = .absorb ∧ i = .final ∧ ∃ a, xorPadding s.lanes s.pos.toNat = some a ∧
      t = startPermutation { setPos 0#8 (setLanes a s) with phase := .squeeze }) ∨
    (s.phase = .squeeze ∧ ∃ k v, i = .squeeze k ∧ readLane s.lanes k = some v ∧ t = setResult v s) ∨
    (s.phase = .idle ∧ i = .permute ∧ t = startPermutation s) ∨
    (s.phase = .idle ∧ ∃ l d a, i = .setlane l d ∧ l ≤ 24 ∧ writeLane s.lanes l d = some a ∧ t = setLanes a s) ∨
    (s.phase ≠ .error ∧ ∃ l v, i = .getlane l ∧ l ≤ 24 ∧ readLane s.lanes l = some v ∧ t = setResult v s) := by
  cases i <;> simp only [exec] at h
  case nop => exact .inl ⟨.inl rfl, (Host.Outcome.next.inj h).symm⟩
  case init => exact .inr (.inr (.inl ⟨rfl, (Host.Outcome.next.inj h).symm⟩))
  case clear => exact .inr (.inr (.inr (.inl ⟨rfl, (Host.Outcome.next.inj h).symm⟩)))
  all_goals
    rcases checked_inv h with ⟨hp, e⟩ | ⟨hp, c, hc, e⟩ | ⟨hp, hl, ha, hf, h⟩
    · exact .inl ⟨.inr hp, e⟩
    · exact .inr (.inl ⟨hp, by simp [Instr.op], c, hc, e⟩)
    right; right; right; right
  case absorb =>
    obtain ⟨a, ha', h⟩ := absorbRule_inv h
    rw [countLegal_iff] at ha
    rw [chunkFits_iff] at hf
    exact .inl ⟨by simpa [legalIn] using hl, _, _, _, rfl, ha.1, ha.2, hf, ha', h⟩
  case final =>
    obtain ⟨a, ha', h⟩ := finalRule_inv h
    exact .inr (.inl ⟨by simpa [legalIn] using hl, rfl, _, ha', h⟩)
  case squeeze =>
    obtain ⟨a, ha', h⟩ := squeezeRule_inv h
    exact .inr (.inr (.inl ⟨by simpa [legalIn] using hl, _, _, rfl, ha', h⟩))
  case permute =>
    exact .inr (.inr (.inr (.inl ⟨by simpa [legalIn] using hl, rfl, (Host.Outcome.next.inj h).symm⟩)))
  case setlane =>
    obtain ⟨a, ha', h⟩ := setlaneRule_inv h
    exact .inr (.inr (.inr (.inr (.inl
      ⟨by simpa [legalIn] using hl, _, _, _, rfl, by simpa using ha, ha', h⟩))))
  case getlane =>
    obtain ⟨a, ha', h⟩ := getlaneRule_inv h
    exact .inr (.inr (.inr (.inr (.inr ⟨hp, _, _, rfl, by simpa using ha, ha', h⟩))))

/-- A lane write leaves every byte outside the lane as it was. -/
theorem readByte_of_writeLane {a a' : Lanes} {l : Nat} {v : Lane} (h : writeLane a l v = some a') {k : Nat}
    (hk : k < 8 * l ∨ 8 * l + 8 ≤ k) : readByte a' k = readByte a k := by
  unfold writeLane at h
  split at h
  · cases h
    by_cases hk2 : k < 200
    · simp [readByte_of_lt _ hk2, show ¬ l = k / 8 by omega]
    · rw [readByte_of_ge _ (by omega), readByte_of_ge _ (by omega)]
  · cases h

end Sys2Proof.Machine
end

