-- ==== Sys2Proof/Laws/PerInstr.lean ====
section
/-! SUPPORT. Statements made per constructor of `Instr`. The family `EncodesInRow`: the encoder's word of a well-formed command is
selected by the command's own row of the opcode map and by no other (R74, R76), and its ARG field holds the operand. -/

namespace Sys2Proof.Laws.EncodesInRow

/-- The word's row is the command's row, the only one, and the low bits hold the operand number. -/
def Statement (i : Instr) : Prop :=
  i.wf = true →
    (∀ o : Op, o.selects (encode i).word = decide (o = i.op)) ∧ (encode i).word.toNat % 32 = i.arg

theorem nop : Statement .nop := fun _ => ⟨by intro o; cases o <;> decide, by decide⟩

theorem init : Statement .init := fun _ => ⟨by intro o; cases o <;> decide, by decide⟩

theorem clear : Statement .clear := fun _ => ⟨by intro o; cases o <;> decide, by decide⟩

theorem absorb (n : Nat) (d : DataWord) : Statement (.absorb n d) := by
  intro h
  have hn : n < 16 := by simpa [Instr.wf] using h
  refine ⟨?_, ?_⟩
  · intro o
    have all : ∀ m : Fin 16, ∀ o : Op,
        o.selects (Op.absorb.pattern ||| BitVec.ofNat 16 m.val) = decide (o = .absorb) := by
      intro m o; revert m; cases o <;> decide
    exact all ⟨n, hn⟩ o
  · have all : ∀ m : Fin 16, (Op.absorb.pattern ||| BitVec.ofNat 16 m.val).toNat % 32 = m.val := by decide
    exact all ⟨n, hn⟩

theorem final : Statement .final := fun _ => ⟨by intro o; cases o <;> decide, by decide⟩

theorem squeeze (k : Nat) : Statement (.squeeze k) := by
  intro h
  have hk : k < 4 := by simpa [Instr.wf] using h
  refine ⟨?_, ?_⟩
  · intro o
    have all : ∀ m : Fin 4, ∀ o : Op,
        o.selects (Op.squeeze.pattern ||| BitVec.ofNat 16 m.val) = decide (o = .squeeze) := by
      intro m o; revert m; cases o <;> decide
    exact all ⟨k, hk⟩ o
  · have all : ∀ m : Fin 4, (Op.squeeze.pattern ||| BitVec.ofNat 16 m.val).toNat % 32 = m.val := by decide
    exact all ⟨k, hk⟩

theorem permute : Statement .permute := fun _ => ⟨by intro o; cases o <;> decide, by decide⟩

theorem setlane (l : Nat) (d : DataWord) : Statement (.setlane l d) := by
  intro h
  have hl : l < 32 := by simpa [Instr.wf] using h
  refine ⟨?_, ?_⟩
  · intro o
    have all : ∀ m : Fin 32, ∀ o : Op,
        o.selects (Op.setlane.pattern ||| BitVec.ofNat 16 m.val) = decide (o = .setlane) := by
      intro m o; revert m; cases o <;> decide
    exact all ⟨l, hl⟩ o
  · have all : ∀ m : Fin 32, (Op.setlane.pattern ||| BitVec.ofNat 16 m.val).toNat % 32 = m.val := by decide
    exact all ⟨l, hl⟩

theorem getlane (l : Nat) : Statement (.getlane l) := by
  intro h
  have hl : l < 32 := by simpa [Instr.wf] using h
  refine ⟨?_, ?_⟩
  · intro o
    have all : ∀ m : Fin 32, ∀ o : Op,
        o.selects (Op.getlane.pattern ||| BitVec.ofNat 16 m.val) = decide (o = .getlane) := by
      intro m o; revert m; cases o <;> decide
    exact all ⟨l, hl⟩ o
  · have all : ∀ m : Fin 32, (Op.getlane.pattern ||| BitVec.ofNat 16 m.val).toNat % 32 = m.val := by decide
    exact all ⟨l, hl⟩

end Sys2Proof.Laws.EncodesInRow
end

