-- ==== Sys2Proof/Laws/Reference.lean ====
section
/-! SUPPORT. Laws of the reference function: the padding by cases, the bytes of a block XOR, and what the absorbed blocks depend on (R170). -/

namespace Sys2Proof.Machine

/-- The padding by the number of message bytes in the last block (R170, R171). -/
theorem padMessage_eq (m : List Byte) :
    padMessage m = m ++ if m.length % 136 = 135 then [0x86#8]
      else 0x06#8 :: List.replicate (134 - m.length % 136) 0x00#8 ++ [0x80#8] := by
  have hr : Config.rate = 136 := rfl
  by_cases h : m.length % 136 = 135
  · rw [if_pos h, padMessage, if_pos (by rw [hr]; omega)]
  · rw [if_neg h, padMessage, if_neg (by rw [hr]; omega), hr]
    simp [Config.suffix, Config.padEnd, show 136 - m.length % 136 - 2 = 134 - m.length % 136 by omega]

/-- One block more than the message fills (R171). -/
theorem padMessage_length (m : List Byte) : (padMessage m).length = 136 * (m.length / 136 + 1) := by
  rw [padMessage_eq]
  split <;> simp <;> omega

/-- `S[i]` after a block is XORed in (R170). A byte past the end of a short block counts as 0. -/
theorem readByte_xorBlock (a : Lanes) (block : List Byte) (i : Nat) :
    readByte (xorBlock a block) i =
      if i < 136 then (readByte a i).map (· ^^^ block.getD i 0#8) else readByte a i := by
  have hr : Config.rate = 136 := rfl
  rw [xorBlock, readByte_deserialize (by simp), List.getElem?_mapIdx, serialize_getElem?, hr]
  cases readByte a i <;> split <;> rfl

/-- The state after `j` blocks depends on the first `136 j` bytes alone (R170). -/
theorem absorbBlocks_congr {p q : List Byte} {j : Nat} (h : p.take (136 * j) = q.take (136 * j)) :
    absorbBlocks p j = absorbBlocks q j := by
  induction j with
  | zero => rfl
  | succ j ih =>
    have h1 : p.take (136 * j) = q.take (136 * j) := by
      have := congrArg (List.take (136 * j)) h
      simpa [List.take_take, show min (136 * j) (136 * (j + 1)) = 136 * j by omega] using this
    have h2 : (p.drop (136 * j)).take 136 = (q.drop (136 * j)).take 136 := by
      have := congrArg (List.drop (136 * j)) h
      simpa [List.drop_take, show 136 * (j + 1) - 136 * j = 136 by omega] using this
    rw [absorbBlocks, absorbBlocks, ih h1, show Config.rate = 136 from rfl, h2]

end Sys2Proof.Machine
end

