-- ==== Sys2Proof/Laws/Step.lean ====
section
/-! SUPPORT. What a step can do, said once: its four events, and the engine step. -/

namespace Sys2Proof.Machine

/-- A step with `rst = 1` (R250). -/
theorem step_reset {s : State} {rest : List HostMove} (h : s.host = .reset :: rest) :
    step s = .next (applyReset rest) := by
  simp [step, eventOf, h]

/-- A step with BUSY = 0 that accepts a command (R33). -/
theorem step_accept {s : State} {c : Command} {rest : List HostMove} (h : s.host = .command c :: rest)
    (hb : s.busy = false) : step s = accept c rest s := by
  simp [step, eventOf, h, hb]

/-- A step with BUSY = 0 and no command presented (R235). -/
theorem step_wait {s : State} {rest : List HostMove} (h : s.host = .wait :: rest) (hb : s.busy = false) :
    step s = .next (setHost rest s) := by
  simp [step, eventOf, h, hb]

/-- A step with BUSY = 0 and a host that drives nothing any more. -/
theorem step_quiet {s : State} (h : s.host = []) (hb : s.busy = false) : step s = .next s := by
  cases s; simp_all [step, eventOf, setHost]

/-- What is left of the host's moves after an engine step: a wait has passed, a command is held (R261). -/
def afterEngine : List HostMove → List HostMove
  | .wait :: rest => rest
  | l => l

/-- A step with BUSY = 1 and no reset is an engine step (R152, R154). -/
theorem step_busy {s : State} (h : s.rst = false) (hb : s.busy = true) :
    step s = engineStep (setHost (afterEngine s.host) s) := by
  cases hh : s.host with
  | nil => simp [step, eventOf, hh, hb, afterEngine]
  | cons m rest =>
    cases m with
    | reset => simp [State.rst, hh] at h
    | wait => simp [step, eventOf, hh, hb, afterEngine]
    | command c => simp [step, eventOf, hh, hb, afterEngine]

/-- Everything a step can be, in the priority of R227. -/
theorem step_cases (s : State) :
    (∃ rest, s.host = .reset :: rest ∧ step s = .next (applyReset rest)) ∨
    (s.rst = false ∧ s.busy = true ∧ step s = engineStep (setHost (afterEngine s.host) s)) ∨
    (∃ c rest, s.host = .command c :: rest ∧ s.busy = false ∧ step s = accept c rest s) ∨
    (∃ rest, s.busy = false ∧ (s.host = .wait :: rest ∨ (s.host = [] ∧ rest = [])) ∧
      step s = .next (setHost rest s)) := by
  cases hh : s.host with
  | nil =>
    cases hb : s.busy
    · exact .inr (.inr (.inr ⟨[], rfl, .inr ⟨rfl, rfl⟩, by simp [step, eventOf, hh, hb]⟩))
    · exact .inr (.inl ⟨by simp [State.rst, hh], rfl, by simp [step, eventOf, hh, hb, afterEngine]⟩)
  | cons m rest =>
    cases m with
    | reset => exact .inl ⟨rest, rfl, step_reset hh⟩
    | wait =>
      cases hb : s.busy
      · exact .inr (.inr (.inr ⟨rest, rfl, .inl rfl, step_wait hh hb⟩))
      · exact .inr (.inl ⟨by simp [State.rst, hh], rfl, by simp [step, eventOf, hh, hb, afterEngine]⟩)
    | command c =>
      cases hb : s.busy
      · exact .inr (.inr (.inl ⟨c, rest, rfl, rfl, step_accept hh hb⟩))
      · exact .inr (.inl ⟨by simp [State.rst, hh], rfl, by simp [step, eventOf, hh, hb, afterEngine]⟩)

/-- An engine step before round 23 (R152). -/
theorem engineStep_more {s : State} (h : s.round.toNat < 23) :
    engineStep s = .next { s with lanes := round s.lanes ⟨s.round.toNat, by omega⟩, round := s.round + 1#5 } := by
  simp [engineStep, show s.round.toNat < 24 by omega, show ¬ s.round.toNat = 23 by omega]

/-- The engine step of round 23 ends the permutation (R152). -/
theorem engineStep_last {s : State} (h : s.round.toNat = 23) :
    engineStep s = .next { s with lanes := round s.lanes ⟨23, by decide⟩, round := 0#5, busy := false } := by
  simp [engineStep, h]

/-- The step of round `k`, before the last, written out: the round, ROUND counted, and the host's moves after it (R152). -/
theorem step_round_more {s : State} {k : Nat} (hk : k < 23) (hx : s.rst = false) (hb : s.busy = true)
    (hr : s.round = BitVec.ofNat 5 k) :
    step s = .next { s with
      lanes := round s.lanes ⟨k, by omega⟩, round := BitVec.ofNat 5 (k + 1), host := afterEngine s.host } := by
  have hn : s.round.toNat = k := by rw [hr]; simp; omega
  have e : (⟨s.round.toNat, by omega⟩ : Fin 24) = ⟨k, by omega⟩ := Fin.ext hn
  rw [step_busy hx hb, engineStep_more (by exact hn ▸ hk)]
  simp only [setHost_lanes, setHost_round, e]
  rw [BitVec.ofNat_add, ← hr]
  simp only [setHost]

/-- The step of round 23, written out: the permutation ends (R152). -/
theorem step_round_last {s : State} (hx : s.rst = false) (hb : s.busy = true) (hr : s.round = BitVec.ofNat 5 23) :
    step s = .next { s with
      lanes := round s.lanes ⟨23, by omega⟩, round := 0#5, busy := false, host := afterEngine s.host } := by
  have hn : (setHost (afterEngine s.host) s).round.toNat = 23 := by rw [setHost_round, hr]; simp
  rw [step_busy hx hb, engineStep_last hn]
  simp only [setHost]

/-- Everything an engine step can answer: registers other than the lanes, ROUND and BUSY are unchanged. -/
theorem engineStep_inv {s t : State} (h : engineStep s = .next t) :
    ∃ hr : s.round.toNat < 24,
      t = { s with
        lanes := round s.lanes ⟨s.round.toNat, hr⟩
        round := if s.round.toNat = 23 then 0#5 else s.round + 1#5
        busy := if s.round.toNat = 23 then false else s.busy } := by
  unfold engineStep at h
  split at h
  · next hr => exact ⟨hr, (Host.Outcome.next.inj h).symm⟩
  · cases h

end Sys2Proof.Machine
end

