-- ==== Sys2Proof/Laws/Runs.lean ====
section
/-! SUPPORT. Runs of several steps: their laws by step, and what accepting a command can do. -/

namespace Sys2Proof.Machine

/-- A run of no step. -/
@[simp] theorem runs_zero_iff (s t : State) : Runs 0 s t ↔ s = t :=
  ⟨fun h => Host.Outcome.next.inj h, fun h => congrArg Host.Outcome.next h⟩

/-- A run of one more step begins with a step. -/
theorem runs_succ_iff (k : Nat) (s t : State) : Runs (k + 1) s t ↔ ∃ u, step s = .next u ∧ Runs k u t := by
  have hc : Sys2Proof.core.step s = step s := rfl
  simp only [Runs, Host.Core.run]
  cases hs : step s with
  | next u => rw [hs] at hc; rw [hc]; exact ⟨fun h => ⟨u, rfl, h⟩, fun ⟨v, hv, h⟩ => by cases hv; exact h⟩
  | fault r => rw [hs] at hc; rw [hc]; exact ⟨(nomatch ·), fun ⟨_, hv, _⟩ => nomatch hv⟩
  | refused r => rw [hs] at hc; rw [hc]; exact ⟨(nomatch ·), fun ⟨_, hv, _⟩ => nomatch hv⟩

/-- Runs compose. -/
theorem runs_add {j k : Nat} {s t u : State} (h₁ : Runs j s t) (h₂ : Runs k t u) : Runs (j + k) s u := by
  induction j generalizing s with
  | zero => rw [runs_zero_iff] at h₁; subst h₁; simpa using h₂
  | succ j ih =>
    obtain ⟨v, hv, hr⟩ := (runs_succ_iff j s t).1 h₁
    rw [show j + 1 + k = (j + k) + 1 by omega]
    exact (runs_succ_iff _ _ _).2 ⟨v, hv, ih hr⟩

/-- Accepting a word that decodes runs the command (R80). -/
theorem accept_ok {c : Command} {i : Instr} (rest : List HostMove) (s : State) (h : decode c.word c.data = .ok i) :
    accept c rest s = exec i (takeCommand rest s) := by
  simp only [accept, h]

/-- Accepting an ILLEGAL word (R80). -/
theorem accept_error {c : Command} {e : DecodeError} (rest : List HostMove) (s : State)
    (h : decode c.word c.data = .error e) : accept c rest s = .next (illegalWord (takeCommand rest s)) := by
  simp only [accept, h]

/-- Accepting a command runs what it decodes to, or is an ILLEGAL word. -/
theorem accept_inv {c : Command} {rest : List HostMove} {s t : State} (h : accept c rest s = .next t) :
    (∃ i, decode c.word c.data = .ok i ∧ exec i (takeCommand rest s) = .next t) ∨
    (∃ e, decode c.word c.data = .error e ∧ t = illegalWord (takeCommand rest s)) := by
  unfold accept at h
  split at h
  · next i hi => exact .inl ⟨i, hi, h⟩
  · next e he => exact .inr ⟨e, he, (Host.Outcome.next.inj h).symm⟩

end Sys2Proof.Machine
end

