-- ==== Sys2Proof/Tests/Slice0.lean ====
section
/-! SUPPORT. Tests of the model against the spec's own words and vectors (95_test_vectors.md), and a witness for the hypotheses of every statement that has any. -/

namespace Sys2Proof.Tests

open Sys2Proof Sys2Proof.Machine

/-- A state that differs from reset in its phase, POS and host's moves. -/
def at_ (p : Phase) (pos : BitVec 8) (host : List HostMove := []) : State :=
  { State.reset with phase := p, pos := pos, host := host }

/-- The command is presented, and nothing after it. -/
def cmd (w : CmdWord) (d : DataWord := 0#64) : List HostMove := [.command ⟨w, d⟩]

/-- An outcome is a next state that satisfies the test. -/
def gives (o : Host.Outcome State Fault Refusal) (p : State → Bool) : Bool :=
  match o with
  | .next t => p t
  | .fault _ => false
  | .refused _ => false

/-- A state in the ERROR phase, as program P4 of 95_test_vectors.md leaves it: STATUS 0x00030036. -/
def erred (host : List HostMove) : State := { at_ .error 3#8 host with errcode := .wrongPhase }

/-- A state in the middle of a permutation. -/
def running (r : BitVec 5) (host : List HostMove) : State := { at_ .idle 0#8 host with busy := true, round := r }

/-! ## Well-formedness: an ill-formed term of each check is refused -/

theorem test_absorb_16_is_ill_formed : (Instr.absorb 16 0#64).wf = false := by decide
theorem test_squeeze_4_is_ill_formed : (Instr.squeeze 4).wf = false := by decide
theorem test_setlane_32_is_ill_formed : (Instr.setlane 32 0#64).wf = false := by decide
theorem test_getlane_32_is_ill_formed : (Instr.getlane 32).wf = false := by decide
theorem test_illegal_operands_are_well_formed :
    (Instr.absorb 9 0#64).wf = true ∧ (Instr.absorb 9 0#64).operandLegal = false ∧ (Instr.absorb 0 0#64).operandLegal = false ∧
    (Instr.setlane 25 0#64).wf = true ∧ (Instr.setlane 25 0#64).operandLegal = false ∧
    (Instr.getlane 31).operandLegal = false := by decide

/-! ## Decoding: each constructor's word, written out from the opcode map (R74) and the worked encodings (R84) -/

theorem test_decode_nop : decode 0b0000_000000000000#16 0#64 = .ok .nop := by decide
theorem test_decode_init : decode 0b0001_000000000000#16 0#64 = .ok .init := by decide
theorem test_decode_clear : decode 0b0010_000000000000#16 0#64 = .ok .clear := by decide
/-- `ABSORB 3, 0x636261` (R84). -/
theorem test_decode_absorb : decode 0b0011_00000000_0011#16 0x636261#64 = .ok (.absorb 3 0x636261#64) := by decide
theorem test_decode_final : decode 0b0100_000000000000#16 0#64 = .ok .final := by decide
/-- `SQUEEZE 2` (R84). -/
theorem test_decode_squeeze : decode 0b0101_0000000000_10#16 0#64 = .ok (.squeeze 2) := by decide
theorem test_decode_permute : decode 0b0110_000000000000#16 0#64 = .ok .permute := by decide
/-- `SETLANE 4, 4, d` is lane 24 (R84). -/
theorem test_decode_setlane : decode 0b0111_0000000_11000#16 5#64 = .ok (.setlane 24 5#64) := by decide
/-- `GETLANE 1, 2` is lane 11 (R84). -/
theorem test_decode_getlane : decode 0b1000_0000000_01011#16 0#64 = .ok (.getlane 11) := by decide
/-- The last legal word of each row that has operand bits, and the first word after it (R74, R75). -/
theorem test_decode_row_ends :
    decode 0x300F#16 0#64 = .ok (.absorb 15 0#64) ∧ decode 0x3010#16 0#64 = .error .reservedArgBit ∧
    decode 0x5003#16 0#64 = .ok (.squeeze 3) ∧ decode 0x5004#16 0#64 = .error .reservedArgBit ∧
    decode 0x701F#16 0#64 = .ok (.setlane 31 0#64) ∧ decode 0x7020#16 0#64 = .error .reservedArgBit ∧
    decode 0x801F#16 0#64 = .ok (.getlane 31) ∧ decode 0x8020#16 0#64 = .error .reservedArgBit := by decide
/-- V-E1 to V-E3, V-SP20. -/
theorem test_decode_illegal :
    decode 0x9000#16 0#64 = .error .reservedOpcode ∧ decode 0xF000#16 0#64 = .error .reservedOpcode ∧
    decode 0x1001#16 0#64 = .error .reservedArgBit ∧ decode 0x4001#16 0#64 = .error .reservedArgBit := by decide
/-- R82: the assembler's words. -/
theorem test_encode :
    encode (.absorb 3 0x636261#64) = ⟨0x3003#16, 0x636261#64⟩ ∧ encode (.setlane 24 7#64) = ⟨0x7018#16, 7#64⟩ ∧
    encode (.getlane 11) = ⟨0x800B#16, 0#64⟩ ∧ encode (.squeeze 2) = ⟨0x5002#16, 0#64⟩ := by decide
/-- P1's first three command words, from its text (R82, R83). -/
theorem test_assemble_text :
    assembleLine "Message \"abc\" ; three bytes".toList = some [⟨0x3003#16, 0x636261#64⟩] ∧
    assembleLine "MESSAGE [0x61, 98, 0x63]".toList = some [⟨0x3003#16, 0x636261#64⟩] ∧
    assembleProgram ["INIT".toList, "absorb 3, 0x636261".toList, "; nothing".toList, "FINAL".toList] =
      some [⟨0x1000#16, 0#64⟩, ⟨0x3003#16, 0x636261#64⟩, ⟨0x4000#16, 0#64⟩] := by decide
/-- R82: an operand out of range is refused; `.cmd` writes any word. -/
theorem test_assemble_refuses :
    assembleLine "SQUEEZE 4".toList = none ∧ assembleLine "ABSORB 1, 256".toList = none ∧
    assembleLine ".cmd 0x9000, 0x0".toList = some [⟨0x9000#16, 0#64⟩] := by decide
theorem test_table_word :
    decodeTableWord 16 0x3003 = some (.absorb 3 0#64) ∧ decodeTableWord 16 0x801F = some (.getlane 31) ∧
    decodeTableWord 16 0x9000 = none := by decide
theorem test_fetch_word_is_run : step (State.reset.withFetchWord 16 0x1000) = exec .init { State.reset with pc := 1 } := rfl

/-! ## The commands -/

/-- V-C1. -/
theorem test_nop : gives (step (at_ .idle 0#8 (cmd 0x0000#16))) (fun t => t.status = 0x00000000#32 && t.pc = 1) = true := by decide
/-- V-C2. -/
theorem test_nop_reserved_bit : gives (step (at_ .idle 0#8 (cmd 0x0001#16))) (fun t => t.status = 0x00000016#32) = true := by decide
/-- V-C7. -/
theorem test_init_leaves_error : gives (step (erred (cmd 0x1000#16))) (fun t => t.status = 0x00000002#32) = true := by decide
/-- V-C3: INIT zeroes the state. -/
theorem test_init_zeroes :
    gives (exec .init { State.reset with lanes := zeroLanes.set 0 0x55#64 }) (fun t => readLane t.lanes 0 = some 0#64) = true := by decide
/-- V-E19. -/
theorem test_clear_leaves_error : gives (step (erred (cmd 0x2000#16))) (fun t => t.status = 0x00000000#32) = true := by decide
/-- V-C4: CLEAR sets RESULT to 0. -/
theorem test_clear_result :
    gives (exec .clear { at_ .squeeze 0#8 with result := 0x3215431145E2BF46#64 }) (fun t => t.result = 0#64) = true := by decide
/-- V-L4: ABSORB 8 at POS 3 reaches two lanes. -/
theorem test_absorb_two_lanes :
    gives (exec (.absorb 8 0x6B6A696867666564#64) { at_ .absorb 3#8 with lanes := zeroLanes.set 0 0x636261#64 })
      (fun t => readLane t.lanes 0 = some 0x6867666564636261#64 && readLane t.lanes 1 = some 0x6B6A69#64 &&
        t.status = 0x000B0002#32) = true := by decide
/-- P3: the 17th ABSORB 8 fills the block. -/
theorem test_absorb_full :
    gives (exec (.absorb 8 0x8786858483828180#64) (at_ .absorb 128#8))
      (fun t => t.status = 0x00000003#32 && readLane t.lanes 16 = some 0x8786858483828180#64) = true := by decide
/-- The example of R176: the empty message. -/
theorem test_final_empty :
    gives (exec .final (at_ .absorb 0#8)) (fun t => t.status = 0x00000005#32 &&
      readLane t.lanes 0 = some 0x06#64 && readLane t.lanes 16 = some 0x8000000000000000#64) = true := by decide
/-- V-S3: the padded block of 135 zero bytes has lane 16 = 0x86 in its top byte. -/
theorem test_final_135 :
    gives (exec .final (at_ .absorb 135#8)) (fun t => readLane t.lanes 16 = some 0x8600000000000000#64) = true := by decide
/-- R180: SQUEEZE K reads lane (K, 0). -/
theorem test_squeeze :
    gives (exec (.squeeze 2) { at_ .squeeze 0#8 with lanes := zeroLanes.set 2 0x5B529D3E6E085F85#64 })
      (fun t => t.result = 0x5B529D3E6E085F85#64 && t.status = 0x00000004#32) = true := by decide
/-- V-SP17. -/
theorem test_squeeze_in_absorb : gives (step (at_ .absorb 0#8 (cmd 0x5000#16))) (fun t => t.status = 0x00000036#32) = true := by decide
/-- P2. -/
theorem test_permute : gives (step (at_ .idle 0#8 (cmd 0x6000#16))) (fun t => t.status = 0x00000001#32) = true := by decide
/-- V-E8. -/
theorem test_permute_in_absorb : gives (step (at_ .absorb 0#8 (cmd 0x6000#16))) (fun t => t.status = 0x00000036#32) = true := by decide
/-- V-L1 and the example of R103. -/
theorem test_setlane :
    gives (exec (.setlane 24 0x0123456789ABCDEF#64) State.reset)
      (fun t => laneAt t.lanes 4 4 = 0x0123456789ABCDEF#64 && readByte t.lanes 192 = some 0xEF#8 &&
        readByte t.lanes 199 = some 0x01#8) = true := by decide
/-- V-L6. -/
theorem test_setlane_31 :
    gives (step (at_ .idle 0#8 (cmd 0x701F#16 5#64))) (fun t => t.status = 0x00000026#32 && t.lanes = zeroLanes) = true := by decide
/-- V-L2: SETLANE 12 wrote only lane 12. -/
theorem test_getlane :
    gives (exec (.getlane 12) { State.reset with lanes := zeroLanes.set 12 9#64 }) (fun t => t.result = 9#64) = true ∧
    gives (exec (.getlane 13) { State.reset with lanes := zeroLanes.set 12 9#64 }) (fun t => t.result = 0#64) = true := by decide
/-- V-L5. -/
theorem test_getlane_25 : gives (step (at_ .idle 0#8 (cmd 0x8019#16))) (fun t => t.status = 0x00000026#32) = true := by decide

/-! ## Errors, the engine, reset -/

/-- V-E4, V-E17, V-E16, V-E15: the priority ILLEGAL, WRONG_PHASE, BAD_ARG, OVERRUN (R225). -/
theorem test_error_priority :
    gives (step (at_ .idle 0#8 (cmd 0x3010#16))) (fun t => t.status = 0x00000016#32) = true ∧
    gives (step (at_ .squeeze 0#8 (cmd 0x3009#16))) (fun t => t.status = 0x00000036#32) = true ∧
    gives (step (at_ .absorb 132#8 (cmd 0x3009#16))) (fun t => t.status = 0x00840026#32) = true ∧
    gives (step (at_ .absorb 132#8 (cmd 0x3005#16))) (fun t => t.status = 0x00840046#32) = true := by decide
/-- V-E18: in the ERROR phase other words have no effect. -/
theorem test_error_phase :
    gives (step (erred (cmd 0x8000#16))) (fun t => t.status = 0x00030036#32) = true ∧
    gives (step (erred (cmd 0x9000#16))) (fun t => t.status = 0x00030036#32) = true := by decide
/-- V-T8: the last round on the zero array, and the end of the permutation. -/
theorem test_last_round :
    gives (step (running 23#5 (cmd 0x0000#16)))
      (fun t => readLane t.lanes 0 = some 0x8000000080008008#64 && t.busy = false && t.round = 0#5 &&
        t.host = cmd 0x0000#16 && t.pc = 0) = true := by decide +kernel
/-- V-T10: the step outputs theta, rho and pi of lane 1, 6 and 9 and the round's lane 0 on the input A(x, y) = 5y + x. -/
theorem test_round_trace :
    let a := lanesOf fun x y => BitVec.ofNat 64 (5 * y.val + x.val)
    laneAt (theta a) 1 1 = 0x0E#64 ∧ laneAt (rho (theta a)) 1 1 = 0x0000E00000000000#64 ∧
    laneAt (pi (rho (theta a))) 1 0 = 0x0000E00000000000#64 ∧
    laneAt (chi (pi (rho (theta a)))) 4 1 = 0x2000000002200003#64 ∧
    laneAt (Sys2Proof.Machine.round a 0) 0 0 = 0x000018000000001B#64 := by decide +kernel
/-- V-I2: reset abandons a permutation. -/
theorem test_reset_over_engine :
    gives (step { running 5#5 [.reset] with lanes := zeroLanes.set 3 1#64, pc := 3 })
      (fun t => t = State.reset) = true := by decide
/-- V-R6 and V-R7. -/
theorem test_rotl64 :
    rotl64 0xDEADBEEFCAFEBABE#64 36 = 0xAFEBABEDEADBEEFC#64 ∧ rotl64 0xAFEBABEDEADBEEFC#64 28 = 0xDEADBEEFCAFEBABE#64 := by decide

/-! ## Witnesses: for every statement with hypotheses, states and operands that meet them, at the ends of their ranges -/

theorem test_witness_ResetStepRestoresEveryRegister : (running 5#5 [.reset, .wait]).host = .reset :: [.wait] := rfl

theorem test_witness_Accepts :
    Accepts (at_ .idle 0#8 (cmd 0x6000#16)) ⟨0x6000#16, 0#64⟩ [] ∧ Accepts (erred (cmd 0x9000#16)) ⟨0x9000#16, 0#64⟩ [] ∧
    Accepts (at_ .absorb 135#8 (cmd 0x3001#16 7#64)) ⟨0x3001#16, 7#64⟩ [] := ⟨⟨rfl, rfl⟩, ⟨rfl, rfl⟩, ⟨rfl, rfl⟩⟩

theorem test_witness_StepRunsTheDecodedCommand :
    Accepts (at_ .idle 0#8 (cmd 0x6000#16)) ⟨0x6000#16, 0#64⟩ [] ∧ decode 0x6000#16 0#64 = .ok .permute ∧
    Accepts (at_ .idle 0#8 (cmd 0x9000#16)) ⟨0x9000#16, 0#64⟩ [] ∧ decode 0x9000#16 0#64 = .error .reservedOpcode ∧
    Accepts (erred (cmd 0x9000#16)) ⟨0x9000#16, 0#64⟩ [] :=
  ⟨⟨rfl, rfl⟩, by decide, ⟨rfl, rfl⟩, by decide, ⟨rfl, rfl⟩⟩

theorem test_witness_CommandIsAcceptedExactlyWhenReady :
    (at_ .idle 0#8 (cmd 0#16)).rst = false ∧ (at_ .idle 0#8 [.reset]).rst = true ∧
    (running 0#5 (cmd 0#16)).host = .command ⟨0#16, 0#64⟩ :: [] ∧
    eventOf (at_ .idle 0#8 (cmd 0#16)) = .accept ⟨0#16, 0#64⟩ [] := by decide

theorem test_witness_StepEventsFollowThePriority :
    (at_ .idle 0#8 [.reset]).rst = true ∧
    ((running 0#5 (cmd 0#16)).rst = false ∧ (running 0#5 (cmd 0#16)).busy = true) ∧
    ((at_ .idle 0#8 (cmd 0#16)).host = .command ⟨0#16, 0#64⟩ :: [] ∧ (at_ .idle 0#8 (cmd 0#16)).busy = false) ∧
    (at_ .idle 0#8 [.wait]).host = .wait :: [] ∧ (at_ .idle 0#8).host = [] := by decide

theorem test_witness_PcCountsAcceptedCommands :
    gives (step (at_ .idle 0#8 [.reset])) (fun t => t.pc = 0) = true ∧
    gives (step { erred (cmd 0x9000#16) with pc := 6 }) (fun t => t.pc = 7) = true ∧
    gives (step { at_ .idle 0#8 [.wait] with pc := 6 }) (fun t => t.pc = 6) = true := by decide

theorem test_witness_EveryWordSelectsOneRowOrIsIllegal :
    ReservedWord 0x9000#16 ∧ ReservedWord 0x8020#16 ∧ ¬ ReservedWord 0x801F#16 ∧ ¬ ReservedWord 0x0000#16 := by
  simp [ReservedWord]

theorem test_witness_DecodeOfEncodeIsTheCommand :
    (Instr.absorb 0 1#64).wf = true ∧ (Instr.absorb 15 1#64).wf = true ∧ (Instr.squeeze 3).wf = true ∧
    (Instr.setlane 31 1#64).wf = true ∧ (Instr.getlane 0).wf = true := by decide

theorem test_witness_EncodeOfDecodeIsTheWord : decode 0x700C#16 9#64 = .ok (.setlane 12 9#64) ∧ decode 0x800C#16 9#64 = .ok (.getlane 12) := by
  decide

/-- V-SP12's case: the DATA bits above 8N differ. -/
theorem test_witness_IgnoredDataBitsHaveNoEffect :
    ((0x3003#16).toNat / 4096 = 3 →
      ∀ j, j < (0x3003#16).toNat % 16 → j < 8 → dataByte 0x0000000000636261#64 j = dataByte 0xFFFFFFFFFF636261#64 j) ∧
    ((0x3003#16).toNat / 4096 = 7 → 0x0000000000636261#64 = 0xFFFFFFFFFF636261#64) ∧
    ((0x6000#16).toNat / 4096 ≠ 3 ∧ (0x6000#16).toNat / 4096 ≠ 7) := by decide

/-- Each form with operands at the ends of their ranges, and one past them. -/
theorem test_witness_AssembledLinesAreLegalCommands :
    assemble (.absorb 8 0xFFFFFFFFFFFFFFFF) = some ⟨0x3008#16, 0xFFFFFFFFFFFFFFFF#64⟩ ∧ assemble (.absorb 1 256) = none ∧
    assemble (.absorb 0 0) = none ∧ assemble (.absorb 9 0) = none ∧
    assemble (.squeeze 3) = some ⟨0x5003#16, 0#64⟩ ∧ assemble (.squeeze 4) = none ∧
    assemble (.setlane 4 4 7) = some ⟨0x7018#16, 7#64⟩ ∧ assemble (.setlane 0 5 7) = none ∧ assemble (.setlane 0 0 (2 ^ 64)) = none ∧
    assemble (.getlane 1 2) = some ⟨0x800B#16, 0#64⟩ ∧ assemble (.getlane 5 0) = none ∧
    assemble (.cmd 0xFFFF 0) = some ⟨0xFFFF#16, 0#64⟩ ∧ assemble (.cmd 0x10000 0) = none := by decide

theorem test_witness_AssemblerTextIsReadAsStated :
    (∀ c ∈ ['N', 'O', 'P'], c.toNat ≠ 34) ∧ ([1, 0, 9] ≠ [] ∧ ∀ d ∈ [1, 0, 9], d < 10) ∧ (∀ d ∈ [15, 0], d < 16) := by simp

theorem test_witness_RotlMovesEveryBitUpModulo64 : 128 % 64 = 0 ∧ 63 % 64 ≠ 0 ∧ 1 ≤ 63 ∧ 63 ≤ 63 ∧ 1 ≤ 1 := by decide

theorem test_witness_ChiIsInjectiveOnEveryRow :
    ∀ x, laneAt (chi zeroLanes) x 4 = laneAt (chi (lanesOf fun _ y => if y = 0 then 1#64 else 0#64)) x 4 := by decide +kernel

theorem test_witness_EngineStepAppliesOneRound :
    (running 0#5 [.wait]).rst = false ∧ (running 0#5 [.wait]).busy = true ∧ (running 23#5 []).round.toNat < 24 ∧
    (at_ .idle 0#8).busy = false := by decide

theorem test_witness_PermutationCompletesIn24Steps :
    (running 0#5 (.wait :: cmd 0x5000#16)).busy = true ∧ (running 0#5 (.wait :: cmd 0x5000#16)).round = 0#5 ∧
    ∀ m ∈ (running 0#5 (.wait :: cmd 0x5000#16)).host.take 24, m ≠ .reset := by decide

/-- The premises of RaisesIllegal, which nine statements conclude. -/
theorem test_witness_RaisesIllegal :
    Accepts (at_ .squeeze 0#8 (cmd 0x4FFF#16)) ⟨0x4FFF#16, 0#64⟩ [] ∧ (at_ .squeeze 0#8).phase ≠ .error := ⟨⟨rfl, rfl⟩, by decide⟩

theorem test_witness_NopChangesNothing : (0x0001#16).toNat / 4096 = 0 ∧ (0x0001#16).toNat % 4096 ≠ 0 := by decide

theorem test_witness_InitZeroesTheStateAndEntersAbsorb : (0x1FFF#16).toNat / 4096 = 1 ∧ (0x1FFF#16).toNat % 4096 ≠ 0 := by decide

theorem test_witness_ClearReturnsToTheResetState :
    (at_ .absorb 7#8).busy = false ∧ (erred []).busy = false ∧ (0x2001#16).toNat / 4096 = 2 ∧ (0x2001#16).toNat % 4096 ≠ 0 := by decide

/-- Inside the block, at its end, at POS 135, one byte past the end; N = 0 and 9; each other phase; the words 0x3000 and 0x300F. -/
theorem test_witness_AbsorbXorsMessageBytesAtPos :
    ((at_ .absorb 0#8).phase = .absorb ∧ (at_ .absorb 0#8).pos.toNat + 1 ≠ 136) ∧ (at_ .absorb 128#8).pos.toNat + 8 = 136 ∧
    (at_ .absorb 135#8).pos.toNat + 1 = 136 ∧ 136 < (at_ .absorb 135#8).pos.toNat + 2 ∧ (8 < 9 ∧ 0 = 0) ∧
    ((at_ .idle 0#8).phase = .idle ∧ (at_ .squeeze 0#8).phase = .squeeze ∧ (erred []).phase = .error) ∧
    (0x3000#16).toNat / 16 = 0x300 ∧ (0x300F#16).toNat / 16 = 0x300 ∧
    ((0x3010#16).toNat / 4096 = 3 ∧ 16 ≤ (0x3010#16).toNat % 4096) := by decide

theorem test_witness_AbsorbIsOneByteAfterAnother :
    (at_ .absorb 134#8).phase = .absorb ∧ 2 ≤ 2 ∧ (at_ .absorb 134#8).pos.toNat + 2 ≤ 136 ∧ (at_ .absorb 3#8).pos.toNat + 8 ≤ 136 := by decide

/-- POS 0, 134 and 135, each other phase. -/
theorem test_witness_FinalPadsTheBlockAndStartsThePermutation :
    (at_ .absorb 0#8).phase = .absorb ∧ (at_ .absorb 134#8).pos.toNat ≤ 135 ∧ (at_ .absorb 134#8).pos.toNat ≠ 135 ∧
    (at_ .absorb 135#8).pos.toNat = 135 ∧ (at_ .idle 0#8).phase = .idle ∧ (at_ .squeeze 0#8).phase = .squeeze ∧
    (erred []).phase = .error ∧ ((0x4001#16).toNat / 4096 = 4 ∧ (0x4001#16).toNat % 4096 ≠ 0) := by decide

theorem test_witness_SqueezeReadsADigestWord :
    (at_ .squeeze 0#8).phase = .squeeze ∧ (3 : Fin 4).val < 4 ∧ (at_ .absorb 0#8).phase = .absorb ∧ (erred []).phase = .error ∧
    (0x5000#16).toNat / 4 = 0x1400 ∧ (0x5003#16).toNat / 4 = 0x1400 ∧
    ((0x5004#16).toNat / 4096 = 5 ∧ 4 ≤ (0x5004#16).toNat % 4096) := by decide

theorem test_witness_PermuteOnlyStartsTheEngine :
    (at_ .idle 0#8).phase = .idle ∧ (at_ .absorb 7#8).phase = .absorb ∧ (at_ .squeeze 0#8).phase = .squeeze ∧ (erred []).phase = .error ∧
    ((0x6800#16).toNat / 4096 = 6 ∧ (0x6800#16).toNat % 4096 ≠ 0) := by decide

/-- The phases, L = 24 and 25, the ends of the row. -/
theorem test_witness_SetlaneWritesOneLane :
    (at_ .idle 0#8).phase = .idle ∧ 5 * (4 : Coord).val + (4 : Coord).val = 24 ∧ ((0 : Coord), (1 : Coord)) ≠ (0, 0) ∧ 24 < 25 ∧
    (at_ .absorb 7#8).phase = .absorb ∧ (erred []).phase = .error ∧
    (0x7000#16).toNat / 32 = 0x380 ∧ (0x701F#16).toNat / 32 = 0x380 ∧
    ((0x7020#16).toNat / 4096 = 7 ∧ 32 ≤ (0x7020#16).toNat % 4096) := by decide

theorem test_witness_GetlaneReadsOneLane :
    (at_ .absorb 7#8).phase ≠ .error ∧ (at_ .squeeze 0#8).phase ≠ .error ∧ 24 < 25 ∧ (erred []).phase = .error ∧
    (0x8000#16).toNat / 32 = 0x400 ∧ (0x801F#16).toNat / 32 = 0x400 ∧
    ((0x8020#16).toNat / 4096 = 8 ∧ 32 ≤ (0x8020#16).toNat % 4096) := by decide

theorem test_witness_GetlaneAndSqueezeAgreeInSqueeze : (at_ .squeeze 0#8).phase = .squeeze ∧ 0 < 4 ∧ 3 < 4 := by decide

theorem test_witness_RepeatingAnIdempotentCommandChangesNothing :
    (Instr.setlane 24 1#64).op ∈ [Op.nop, .init, .clear, .squeeze, .setlane, .getlane] ∧
    gives (exec (.setlane 24 1#64) (at_ .idle 0#8)) (fun t => readLane t.lanes 24 = some 1#64) = true := by decide

/-- An effect of each command, and an error. -/
theorem test_witness_FrameOfCommandsThatStoreNothing :
    gives (exec .nop (at_ .idle 0#8)) (fun t => t.phase = .idle) = true ∧ gives (exec .permute (at_ .idle 0#8)) (fun t => t.busy) = true ∧
    gives (exec .permute (at_ .absorb 0#8)) (fun t => t.phase = .error) = true ∧
    gives (exec (.squeeze 3) (at_ .squeeze 0#8)) (fun t => t.phase = .squeeze) = true ∧
    gives (exec (.getlane 24) (at_ .absorb 3#8)) (fun t => t.phase = .absorb) = true := by decide

/-- An effect of each command at the ends of its range, and an error. -/
theorem test_witness_FrameOfStoringCommands :
    gives (exec (.absorb 8 1#64) (at_ .absorb 128#8)) (fun t => t.busy) = true ∧
    gives (exec (.absorb 8 1#64) (at_ .absorb 129#8)) (fun t => t.phase = .error) = true ∧
    gives (exec .final (at_ .absorb 135#8)) (fun t => t.phase = .squeeze) = true ∧
    gives (exec (.setlane 24 1#64) (at_ .idle 0#8)) (fun t => readByte t.lanes 192 = some 1#8) = true := by decide

/-- A state that meets the invariants with the ERROR phase at POS 3, one in a permutation, one at POS 135. -/
theorem test_witness_EveryStepKeepsTheInvariants :
    (erred (cmd 0x2000#16)).Inv ∧ (running 23#5 [.wait]).Inv ∧ (at_ .absorb 135#8 (cmd 0x3001#16)).Inv :=
  ⟨⟨by decide, by decide, by decide, by decide, by decide, by decide⟩, ⟨by decide, by decide, by decide, by decide, by decide, by decide⟩,
    ⟨by decide, by decide, by decide, by decide, by decide, by decide⟩⟩

theorem test_witness_NoRunEverStops : (running 0#5 [.wait, .reset]).Inv :=
  ⟨by decide, by decide, by decide, by decide, by decide, by decide⟩

/-- Byte 199 and byte 136 change, by SETLANE and by INIT; the state meets the invariants. -/
theorem test_witness_CapacityIsWrittenOnlyAsStated :
    (at_ .idle 0#8 (cmd 0x7018#16 0x0100000000000000#64)).Inv ∧
    gives (step (at_ .idle 0#8 (cmd 0x7018#16 0x0100000000000000#64))) (fun t => readByte t.lanes 199 ≠ readByte zeroLanes 199) = true ∧
    gives (step { at_ .idle 0#8 (cmd 0x1000#16) with lanes := zeroLanes.set 17 1#64 })
      (fun t => readByte t.lanes 136 ≠ readByte (zeroLanes.set 17 1#64) 136) = true :=
  ⟨⟨by decide, by decide, by decide, by decide, by decide, by decide⟩, by decide, by decide⟩

theorem test_witness_ResultChangesOnlyAsStated :
    gives (step { at_ .idle 0#8 (cmd 0x8000#16) with lanes := zeroLanes.set 0 1#64 }) (fun t => t.result ≠ 0#64) = true ∧
    gives (step { at_ .idle 0#8 (cmd 0x1000#16) with result := 1#64 }) (fun t => t.result ≠ 1#64) = true ∧
    gives (step { at_ .idle 0#8 [.reset] with result := 1#64 }) (fun t => t.result ≠ 1#64) = true := by decide

/-- Each error, from a phase other than ERROR; and POS + N = 136, which is no error. -/
theorem test_witness_ErrorsArePrecise :
    (gives (step (at_ .absorb 128#8 (cmd 0x3008#16))) (fun t => t.phase ≠ .error) = true ∧
     gives (step (at_ .absorb 129#8 (cmd 0x3008#16))) (fun t => t.phase = .error) = true) ∧
    gives (step (at_ .absorb 0#8 (cmd 0x3000#16))) (fun t => t.phase = .error && t.errcode = .badArg) = true ∧
    gives (step (at_ .idle 0#8 (cmd 0x4000#16))) (fun t => t.phase = .error && t.errcode = .wrongPhase) = true ∧
    gives (step (at_ .idle 0#8 (cmd 0x9000#16))) (fun t => t.phase = .error && t.errcode = .illegal) = true := by decide

/-- Every premise of FirstErrorInThePriorityIsReported: reserved; wrong phase; bad operand; overrun; none of them, at POS 135. -/
theorem test_witness_FirstErrorInThePriorityIsReported :
    ReservedWord 0x3010#16 ∧ ((at_ .squeeze 0#8).phase ≠ .absorb ∧ decode 0x3009#16 0#64 = .ok (.absorb 9 0#64)) ∧
    ((at_ .absorb 0#8).phase = .absorb ∧ (Instr.absorb 9 0#64).operandLegal = false) ∧
    ((Instr.absorb 5 0#64).operandLegal = true ∧ 136 < (at_ .absorb 132#8).pos.toNat + 5) ∧
    ((at_ .absorb 135#8).pos.toNat + 1 ≤ 136 ∧ (at_ .absorb 135#8).pos.toNat ≤ 135) :=
  ⟨by simp [ReservedWord], by decide, by decide, by decide, by decide⟩

/-- NOP, INIT, CLEAR and other words, one of them ILLEGAL, in the ERROR phase. -/
theorem test_witness_ErrorPhaseIgnoresOtherCommands :
    (Accepts (erred (cmd 0x0000#16)) ⟨0x0000#16, 0#64⟩ [] ∧ Accepts (erred (cmd 0x1000#16)) ⟨0x1000#16, 0#64⟩ [] ∧
     Accepts (erred (cmd 0x2000#16)) ⟨0x2000#16, 0#64⟩ [] ∧ Accepts (erred (cmd 0x3001#16)) ⟨0x3001#16, 0#64⟩ []) ∧
    (erred []).phase = .error ∧ 0x3001#16 ∉ [0x0000#16, 0x1000#16, 0x2000#16] ∧
    0x1001#16 ∉ [0x0000#16, 0x1000#16, 0x2000#16] := ⟨⟨⟨rfl, rfl⟩, ⟨rfl, rfl⟩, ⟨rfl, rfl⟩, ⟨rfl, rfl⟩⟩, by decide⟩

theorem test_witness_OnlyInitClearAndResetLeaveError :
    (erred []).phase = .error ∧ (erred [.reset]).rst = true ∧
    gives (step (erred (cmd 0x1000#16))) (fun t => t.phase ≠ .error) = true ∧
    gives (step (erred (cmd 0x2000#16))) (fun t => t.phase ≠ .error) = true ∧
    gives (step (erred [.reset])) (fun t => t.phase ≠ .error) = true := by decide

theorem test_witness_FirstErrorCodeIsKept :
    gives (step (erred (cmd 0x9000#16))) (fun t => t.phase = .error) = true ∧
    gives (step (erred [.wait])) (fun t => t.phase = .error) = true := by decide

/-- A run from reset in which the host drives a command, as EveryStepKeepsTheInvariants has them. -/
theorem test_witness_RunsFromReset : Runs 1 { State.reset with host := cmd 0x0000#16 } { State.reset with pc := 1 } := rfl

/-- Lane 0, byte 0: another lane, and in the lane itself the first bit after the byte; byte 7 of lane 24: the last bit before it. -/
theorem test_witness_BytesAreLaneBitsLeastSignificantFirst :
    ((1, 0) : Coord × Coord) ≠ (0, 0) ∧ 8 * (0 : Fin 8).val + 8 ≤ 8 ∧ 55 < 8 * (7 : Fin 8).val := by decide

theorem test_witness_SerializationRoundTrips : (List.replicate 200 0x5A#8).length = 200 := List.length_replicate

/-- Messages of 135, 136 and 0 bytes. -/
theorem test_witness_PaddingFillsWholeBlocks :
    (List.replicate 135 0#8).length % 136 = 135 ∧ (List.replicate 136 0#8).length % 136 = 0 ∧ ([] : List Byte).length % 136 = 0 := by
  simp

/-- No chunk at all, and a chunk that ends where the block ends. -/
theorem test_witness_SpongeCommandsComputeSha3 :
    ChunksFit 0 [] ∧ ChunksFit 0 [[0x61#8, 0x62#8, 0x63#8]] ∧ ChunksFit 128 [List.replicate 8 0#8, [1#8]] ∧
    (at_ .squeeze 0#8 (presentAll (hashCommands [[0x61#8]] ++ [.squeeze 0]))).host =
      presentAll (hashCommands [[0x61#8]] ++ [.squeeze 0]) ∧ (at_ .squeeze 0#8).busy = false := by
  simp [ChunksFit, Config.rate, at_, State.reset]

/-- Two states that differ in everything INIT clears, and a run of two steps from the first. -/
theorem test_witness_NothingIsCarriedOverAnInit :
    Accepts (at_ .absorb 7#8 (cmd 0x1000#16)) ⟨0x1000#16, 0#64⟩ [] ∧ Accepts (erred (cmd 0x1000#16)) ⟨0x1000#16, 0#64⟩ [] ∧
    Runs 2 (at_ .absorb 7#8 (cmd 0x1000#16)) { at_ .absorb 0#8 with pc := 1 } := by
  exact ⟨⟨rfl, rfl⟩, ⟨rfl, rfl⟩, rfl⟩

end Sys2Proof.Tests
end

section
/-! PROOFS. The statements about the state, reset, the handshake and the byte view (10_state.md), with the lemmas they rest on. -/

namespace Sys2Proof.Machine

/-! ## The one event of a step, as a case split of its next state -/

/-- The reset input is 1 exactly when the host's next move is reset (R250). -/
theorem rst_iff (s : State) : s.rst = true ↔ ∃ rest, s.host = .reset :: rest := by
  unfold State.rst
  split
  · next rest h => simp [h]
  · next h => simpa using h

@[simp] theorem illegalWord_lanes (s : State) : (illegalWord s).lanes = s.lanes := by
  unfold illegalWord; split <;> rfl

@[simp] theorem illegalWord_result (s : State) : (illegalWord s).result = s.result := by
  unfold illegalWord; split <;> rfl

@[simp] theorem illegalWord_pc (s : State) : (illegalWord s).pc = s.pc := by
  unfold illegalWord; split <;> rfl

/-- Everything a step's next state can be: reset, an engine step's, an accepted command's, that of an accepted ILLEGAL word, or
the old state with the host moved on. -/
theorem step_inv {s t : State} (h : step s = .next t) :
    (s.rst = true ∧ ∃ rest, t = applyReset rest) ∨
    (s.busy = true ∧ engineStep (setHost (afterEngine s.host) s) = .next t) ∨
    (∃ c rest i, Accepts s c rest ∧ decode c.word c.data = .ok i ∧ exec i (takeCommand rest s) = .next t) ∨
    (∃ c rest, Accepts s c rest ∧ t = illegalWord (takeCommand rest s)) ∨
    ∃ rest, t = setHost rest s := by
  rcases step_cases s with ⟨rest, hr, e⟩ | ⟨-, hb, e⟩ | ⟨c, rest, hc, hb, e⟩ | ⟨rest, -, -, e⟩ <;> rw [e] at h
  · exact .inl ⟨(rst_iff s).2 ⟨rest, hr⟩, rest, (Host.Outcome.next.inj h).symm⟩
  · exact .inr (.inl ⟨hb, h⟩)
  · rcases accept_inv h with ⟨i, hi, hx⟩ | ⟨e, -, rfl⟩
    · exact .inr (.inr (.inl ⟨c, rest, i, ⟨hc, hb⟩, hi, hx⟩))
    · exact .inr (.inr (.inr (.inl ⟨c, rest, ⟨hc, hb⟩, rfl⟩)))
  · exact .inr (.inr (.inr (.inr ⟨rest, (Host.Outcome.next.inj h).symm⟩)))

/-! ## The invariants of R41, one rule per update of the state -/

/-- The invariants hold right after a reset, whatever the host drives next (R42). -/
theorem inv_applyReset (rest : List HostMove) : (applyReset rest).Inv where
  posInRate := by simp
  posZero _ := rfl
  busyPhase := by simp
  roundIdle _ := rfl
  roundBusy := by simp
  errorCode := by simp

theorem State.Inv.setHost {s : State} (hi : s.Inv) (rest : List HostMove) : (setHost rest s).Inv := { hi with }

theorem State.Inv.takeCommand {s : State} (hi : s.Inv) (rest : List HostMove) : (takeCommand rest s).Inv := { hi with }

theorem State.Inv.setLanes {s : State} (hi : s.Inv) (a : Lanes) : (setLanes a s).Inv := { hi with }

theorem State.Inv.setResult {s : State} (hi : s.Inv) (v : Lane) : (setResult v s).Inv := { hi with }

/-- An error entry of a command that was accepted, so with BUSY = 0, keeps the invariants (R222). -/
theorem State.Inv.raiseError {s : State} (hi : s.Inv) (hb : s.busy = false) {c : ErrCode} (hc : c ≠ .none) :
    (raiseError c s).Inv where
  posInRate := hi.posInRate
  posZero := by simp
  busyPhase := by simp [hb]
  roundIdle := hi.roundIdle
  roundBusy := hi.roundBusy
  errorCode := by simp [hc]

/-- INIT and CLEAR establish the invariants from any state that is not busy (R202, R204). -/
theorem inv_restart {s : State} (hb : s.busy = false) {p : Phase} (hp : p ≠ .error) : (restart p s).Inv where
  posInRate := by simp
  posZero _ := rfl
  busyPhase := by simp [hb]
  roundIdle _ := rfl
  roundBusy := by simp
  errorCode := by simp [hp]

/-- Starting a permutation keeps the invariants where POS is 0 and there is no error (R41 (c)). -/
theorem State.Inv.startPermutation {s : State} (hi : s.Inv) (hz : s.pos = 0#8) (hp : s.phase ≠ .error) :
    (startPermutation s).Inv where
  posInRate := hi.posInRate
  posZero := hi.posZero
  busyPhase _ := ⟨hp, hz⟩
  roundIdle := by simp
  roundBusy := by simp
  errorCode := hi.errorCode

/-- In the ABSORB phase any POS inside the rate keeps the invariants while no permutation runs. -/
theorem State.Inv.setPos {s : State} (hi : s.Inv) (hb : s.busy = false) (ha : s.phase = .absorb) {p : BitVec 8}
    (hp : p.toNat ≤ 135) : (setPos p s).Inv where
  posInRate := hp
  posZero := by simp [ha]
  busyPhase := by simp [hb]
  roundIdle := hi.roundIdle
  roundBusy := hi.roundBusy
  errorCode := hi.errorCode

/-- Where POS is 0, leaving one phase without an error for another keeps the invariants. -/
theorem State.Inv.setPhase {s : State} (hi : s.Inv) (hz : s.pos = 0#8) (hs : s.phase ≠ .error) {p : Phase} (hp : p ≠ .error) :
    State.Inv { s with phase := p } where
  posInRate := hi.posInRate
  posZero _ := hz
  busyPhase _ := ⟨hp, hz⟩
  roundIdle := hi.roundIdle
  roundBusy := hi.roundBusy
  errorCode := iff_of_false (fun h => hs (hi.errorCode.1 h)) hp

/-- An ILLEGAL word keeps the invariants (R75). -/
theorem State.Inv.illegalWord {s : State} (hi : s.Inv) (hb : s.busy = false) : (illegalWord s).Inv := by
  unfold Machine.illegalWord
  split
  · exact hi
  · exact hi.raiseError hb (by decide)

/-- An engine step keeps the invariants: ROUND counts to 23 and then BUSY and ROUND are 0 (R152). -/
theorem engineStep_keeps_inv {s t : State} (hi : s.Inv) (hb : s.busy = true) (h : engineStep s = .next t) : t.Inv := by
  obtain ⟨hr, rfl⟩ := engineStep_inv h
  generalize round s.lanes ⟨s.round.toNat, hr⟩ = a
  by_cases hl : s.round.toNat = 23
  · exact { hi with
      busyPhase := by simp [hl]
      roundIdle := by simp [hl]
      roundBusy := by simp [hl] }
  · have hn : (s.round + 1#5).toNat ≤ 23 := by bv_omega
    exact { hi with
      busyPhase := by simpa [hl] using hi.busyPhase
      roundIdle := by simp [hl, hb]
      roundBusy := by simpa [hl] using fun _ => hn }

/-- An accepted command keeps the invariants, whatever it does. -/
theorem exec_keeps_inv {i : Instr} {s t : State} (hi : s.Inv) (hb : s.busy = false) (h : exec i s = .next t) : t.Inv := by
  rcases exec_inv h with ⟨-, rfl⟩ | ⟨-, -, c, hc, rfl⟩ | ⟨-, rfl⟩ | ⟨-, rfl⟩ |
    ⟨hp, n, d, a, -, -, -, hfit, -, ⟨-, rfl⟩ | ⟨hn, rfl⟩⟩ | ⟨hp, -, a, -, rfl⟩ | ⟨-, k, v, -, -, rfl⟩ |
    ⟨hp, -, rfl⟩ | ⟨-, l, d, a, -, -, -, rfl⟩ | ⟨-, l, v, -, -, -, rfl⟩
  · exact hi
  · exact hi.raiseError hb hc
  · exact inv_restart hb (by decide)
  · exact inv_restart hb (by decide)
  · exact ((hi.setLanes a).setPos hb hp (by decide)).startPermutation rfl (by simp [hp])
  · have hle : (s.pos + BitVec.ofNat 8 n).toNat ≤ 135 := by simp; omega
    exact (hi.setLanes a).setPos hb hp hle
  · exact (((hi.setLanes a).setPos hb hp (by decide)).setPhase rfl (by simp [hp]) (by decide)).startPermutation rfl (by simp)
  · exact hi.setResult v
  · exact hi.startPermutation (hi.posZero (.inl hp)) (by simp [hp])
  · exact hi.setLanes a
  · exact hi.setResult v

/-- Every step keeps the invariants (R41). -/
theorem step_keeps_inv {s t : State} (hi : s.Inv) (h : step s = .next t) : t.Inv := by
  rcases step_inv h with ⟨-, rest, rfl⟩ | ⟨hb, he⟩ | ⟨c, rest, i, ⟨-, hb⟩, -, hx⟩ | ⟨c, rest, ⟨-, hb⟩, rfl⟩ | ⟨rest, rfl⟩
  · exact inv_applyReset rest
  · exact engineStep_keeps_inv (hi.setHost (afterEngine s.host)) hb he
  · exact exec_keeps_inv (hi.takeCommand rest) hb hx
  · exact (hi.takeCommand rest).illegalWord hb
  · exact hi.setHost rest

/-- Every run keeps the invariants, by induction on its steps. -/
theorem runs_keeps_inv {k : Nat} {s t : State} (hi : s.Inv) (h : Runs k s t) : t.Inv := by
  induction k generalizing s with
  | zero => rw [runs_zero_iff] at h; exact h ▸ hi
  | succ k ih =>
    obtain ⟨u, hu, hr⟩ := (runs_succ_iff k s t).1 h
    exact ih (step_keeps_inv hi hu) hr

/-- Settles O48: one rule per event of a step keeps the invariants, and runs follow by induction. -/
theorem everyStepKeepsTheInvariants : Obligations.EveryStepKeepsTheInvariants :=
  ⟨fun _ _ => step_keeps_inv, fun moves _ _ => runs_keeps_inv (inv_applyReset moves)⟩

/-- Settles O47: the reset state with the host's moves is what a reset step leaves. -/
theorem resetStateMeetsTheInvariants : Obligations.ResetStateMeetsTheInvariants := inv_applyReset

/-! ## The frames of an accepted command: pc, RESULT and the capacity bytes -/

/-- No command's meaning moves pc: it has moved at acceptance (R24). -/
theorem exec_pc {i : Instr} {s t : State} (h : exec i s = .next t) : t.pc = s.pc := by
  rcases exec_inv h with ⟨-, rfl⟩ | ⟨-, -, c, -, rfl⟩ | ⟨-, rfl⟩ | ⟨-, rfl⟩ |
    ⟨-, n, d, a, -, -, -, -, -, ⟨-, rfl⟩ | ⟨-, rfl⟩⟩ | ⟨-, -, a, -, rfl⟩ | ⟨-, k, v, -, -, rfl⟩ |
    ⟨-, -, rfl⟩ | ⟨-, l, d, a, -, -, -, rfl⟩ | ⟨-, l, v, -, -, -, rfl⟩ <;> rfl

/-- Accepting a command advances pc by 1, an ILLEGAL word too (R24, R80). -/
theorem accept_pc {c : Command} {rest : List HostMove} {s t : State} (h : accept c rest s = .next t) : t.pc = s.pc + 1 := by
  rcases accept_inv h with ⟨i, -, hx⟩ | ⟨e, -, rfl⟩
  · exact exec_pc hx
  · simp

/-- An engine step leaves pc as it is. -/
theorem engineStep_pc {s t : State} (h : engineStep s = .next t) : t.pc = s.pc := by
  obtain ⟨hr, rfl⟩ := engineStep_inv h; rfl

/-- An engine step leaves RESULT as it is (R152). -/
theorem engineStep_result {s t : State} (h : engineStep s = .next t) : t.result = s.result := by
  obtain ⟨hr, rfl⟩ := engineStep_inv h; rfl

/-- Settles O6: pc by the event of the step. -/
theorem pcCountsAcceptedCommands : Obligations.PcCountsAcceptedCommands := by
  intro s t h
  refine ⟨fun hr => ?_, fun c rest ⟨hc, hb⟩ => ?_, fun hr hn => ?_⟩
  · obtain ⟨rest, hh⟩ := (rst_iff s).1 hr
    rw [step_reset hh] at h
    cases h; rfl
  · rw [step_accept hc hb] at h
    exact accept_pc h
  · rcases step_inv h with ⟨hx, -⟩ | ⟨-, he⟩ | ⟨c, rest, i, ha, -⟩ | ⟨c, rest, ha, -⟩ | ⟨rest, rfl⟩
    · simp [hr] at hx
    · exact (engineStep_pc he).trans (setHost_pc _ s)
    · exact absurd ha (hn c rest)
    · exact absurd ha (hn c rest)
    · rfl

/-- A command that changes RESULT is GETLANE or SQUEEZE, or INIT or CLEAR, which zero it (R31). -/
theorem exec_result {i : Instr} {s t : State} (h : exec i s = .next t) (hne : t.result ≠ s.result) :
    i.op ∈ [Op.getlane, .squeeze] ∨ (i.op ∈ [Op.init, .clear] ∧ t.result = 0#64) := by
  rcases exec_inv h with ⟨-, rfl⟩ | ⟨-, -, c, -, rfl⟩ | ⟨rfl, rfl⟩ | ⟨rfl, rfl⟩ |
    ⟨-, n, d, a, -, -, -, -, -, ⟨-, rfl⟩ | ⟨-, rfl⟩⟩ | ⟨-, -, a, -, rfl⟩ | ⟨-, k, v, rfl, -⟩ |
    ⟨-, -, rfl⟩ | ⟨-, l, d, a, -, -, -, rfl⟩ | ⟨-, l, v, rfl, -⟩
  · exact absurd rfl hne
  · exact absurd rfl hne
  · exact .inr ⟨by simp [Instr.op], rfl⟩
  · exact .inr ⟨by simp [Instr.op], rfl⟩
  · exact absurd rfl hne
  · exact absurd rfl hne
  · exact absurd rfl hne
  · exact .inl (by simp [Instr.op])
  · exact absurd rfl hne
  · exact absurd rfl hne
  · exact .inl (by simp [Instr.op])

/-- Settles O40: by the event of the step, and RESULT by the command. -/
theorem resultChangesOnlyAsStated : Obligations.ResultChangesOnlyAsStated := by
  intro s t h hne
  rcases step_inv h with ⟨hr, rest, rfl⟩ | ⟨-, he⟩ | ⟨c, rest, i, ha, hi, hx⟩ | ⟨c, rest, -, rfl⟩ | ⟨rest, rfl⟩
  · exact .inl ⟨hr, rfl⟩
  · exact absurd (engineStep_result he) hne
  · exact .inr ⟨c.word, c.data, rest, i, ha, hi, exec_result hx hne⟩
  · simp at hne
  · exact absurd rfl hne

/-- ABSORB's XOR leaves every byte outside the chunk as it was (R172). -/
theorem readByte_of_xorBytes {a a' : Lanes} {base n k : Nat} {d : DataWord} (h : xorBytes a base d n = some a')
    (hn : base + n ≤ 200) (hk : k < base ∨ base + n ≤ k) : readByte a' k = readByte a k := by
  obtain ⟨b, hb, hr⟩ := xorBytes_spec a base d n hn
  obtain rfl : b = a' := Option.some.inj (hb.symm.trans h)
  rw [hr k, if_neg (by omega)]

/-- FINAL's padding leaves every byte but `p` and 135 as it was (R176). -/
theorem readByte_of_xorPadding {a a' : Lanes} {p k : Nat} (h : xorPadding a p = some a') (hp : p < 200) (hkp : k ≠ p)
    (hk : k ≠ 135) : readByte a' k = readByte a k := by
  obtain ⟨b, hb, hr⟩ := xorPadding_spec a hp
  obtain rfl : b = a' := Option.some.inj (hb.symm.trans h)
  rw [hr k, if_neg hkp, if_neg hk]

/-- A command that changes a capacity byte is SETLANE, INIT or CLEAR, where POS is inside the rate (R23). -/
theorem exec_capacity {i : Instr} {s t : State} (hp : s.pos.toNat ≤ 135) (h : exec i s = .next t) {k : Nat} (hk : 136 ≤ k)
    (hne : readByte t.lanes k ≠ readByte s.lanes k) : i.op ∈ [Op.setlane, .init, .clear] := by
  rcases exec_inv h with ⟨-, rfl⟩ | ⟨-, -, c, -, rfl⟩ | ⟨rfl, -⟩ | ⟨rfl, -⟩ |
    ⟨-, n, d, a, -, -, -, hfit, ha, ht⟩ | ⟨-, -, a, ha, rfl⟩ | ⟨-, k, v, -, -, rfl⟩ |
    ⟨-, -, rfl⟩ | ⟨-, l, d, a, rfl, -⟩ | ⟨-, l, v, -, -, -, rfl⟩
  · exact absurd rfl hne
  · exact absurd rfl hne
  · simp [Instr.op]
  · simp [Instr.op]
  · have hl : t.lanes = a := by rcases ht with ⟨-, rfl⟩ | ⟨-, rfl⟩ <;> rfl
    exact absurd (hl ▸ readByte_of_xorBytes ha (by omega) (by omega)) hne
  · exact absurd (readByte_of_xorPadding ha (by omega) (by omega) (by omega)) hne
  · exact absurd rfl hne
  · exact absurd rfl hne
  · simp [Instr.op]
  · exact absurd rfl hne

/-- Settles O39: by the event of the step, and the capacity bytes by the command. -/
theorem capacityIsWrittenOnlyAsStated : Obligations.CapacityIsWrittenOnlyAsStated := by
  intro s t hs h k hk _ hne
  rcases step_inv h with ⟨hr, -⟩ | ⟨hb, -⟩ | ⟨c, rest, i, ha, hi, hx⟩ | ⟨c, rest, -, rfl⟩ | ⟨rest, rfl⟩
  · exact .inl hr
  · exact .inr (.inl hb)
  · exact .inr (.inr ⟨c.word, c.data, rest, i, ha, hi, exec_capacity (s := takeCommand rest s) hs.posInRate hx hk hne⟩)
  · simp at hne
  · exact absurd rfl hne

/-! ## The byte view as bits of lanes -/

/-- Bit `n` of a lane is bit `n mod 8` of its byte `n / 8` (R21). -/
theorem getLsbD_laneByte (v : Lane) (n : Nat) : (laneByte v (n / 8)).getLsbD (n % 8) = v.getLsbD n := by
  rw [laneByte, BitVec.getLsbD_extractLsb', Nat.div_add_mod]
  simp [Nat.mod_lt]

/-- The lane with byte `j` replaced holds the new byte's bits at byte `j` and its own bits elsewhere (R22). -/
theorem getLsbD_setLaneByte (v : Lane) (b : Byte) {j : Nat} (hj : j < 8) (n : Nat) :
    (setLaneByte v j b).getLsbD n = if n / 8 = j then b.getLsbD (n % 8) else v.getLsbD n := by
  by_cases hn : n < 64
  · rw [← getLsbD_laneByte, laneByte_setLaneByte v b hj (show n / 8 < 8 by omega)]
    split
    · rfl
    · exact getLsbD_laneByte v n
  · rw [if_neg (by omega), BitVec.getLsbD_of_ge _ n (by omega), BitVec.getLsbD_of_ge v n (by omega)]

theorem laneIndex_inj {u v x y : Coord} : laneIndex u v = laneIndex x y ↔ (u, v) = (x, y) := by
  refine ⟨fun h => ?_, fun h => by cases h; rfl⟩
  have hx := congrArg laneX h
  have hy := congrArg laneY h
  rw [laneX_laneIndex, laneX_laneIndex] at hx
  rw [laneY_laneIndex, laneY_laneIndex] at hy
  rw [hx, hy]

/-- A byte of lane (x, y) reads as that lane's byte (R21). -/
theorem readByte_lane (a : Lanes) (x y : Coord) {j : Nat} (hj : j < 8) :
    readByte a (8 * (5 * y.val + x.val) + j) = some (laneByte (laneAt a x y) j) :=
  readByte_of_readLane (readLane_eq_laneAt a x y) hj

/-- Writing a byte of lane (x, y) replaces it in that lane and leaves every other lane as it was (R22). -/
theorem writeByte_lane (a : Lanes) (x y : Coord) {j : Nat} (hj : j < 8) (b : Byte) :
    ∃ a', writeByte a (8 * (5 * y.val + x.val) + j) b = some a' ∧
      ∀ u v, laneAt a' u v = if (u, v) = (x, y) then setLaneByte (laneAt a x y) j b else laneAt a u v := by
  have hi : (8 * (5 * y.val + x.val) + j) / 8 = laneIndex x y := by simp only [laneIndex]; omega
  have hm : (8 * (5 * y.val + x.val) + j) % 8 = j := by omega
  refine ⟨a.set (laneIndex x y) (setLaneByte (laneAt a x y) j b), ?_, fun u v => ?_⟩
  · rw [writeByte, dif_pos (by omega)]
    simp only [hi, hm, laneAt, Fin.getElem_fin]
  · simp only [← laneIndex_inj, laneAt, Fin.getElem_fin, Vector.getElem_set, ← Fin.ext_iff, eq_comm]

/-- Settles O50: reads and writes of the byte view, bit by bit. -/
theorem bytesAreLaneBitsLeastSignificantFirst : Obligations.BytesAreLaneBitsLeastSignificantFirst := by
  intro a x y j
  refine ⟨readByte_lane a x y j.isLt, fun b => ?_⟩
  obtain ⟨a', ha, hl⟩ := writeByte_lane a x y j.isLt b
  refine ⟨a', ha, fun k hk => ?_, fun u v n hn => ?_⟩
  · rw [hl, if_pos rfl, getLsbD_setLaneByte _ b j.isLt, if_pos (by omega), show (8 * j.val + k) % 8 = k by omega]
  · rw [hl]
    split
    · next e =>
      cases e
      rw [getLsbD_setLaneByte _ b j.isLt, if_neg (by simp at hn; omega)]
    · rfl

/-- Settles O51: arrays are equal byte by byte, and so are lists of 200 bytes. -/
theorem serializationRoundTrips : Obligations.SerializationRoundTrips := by
  refine ⟨fun a => lanes_ext_bytes fun i _ => ?_, fun bytes hl => List.ext_getElem? fun i => ?_⟩
  · rw [readByte_deserialize (serialize_length a), serialize_getElem?]
  · rw [serialize_getElem?, readByte_deserialize hl]

/-! ## Reset, the handshake, STATUS, the ROMs -/

/-- Every byte of the state is 0 after reset (R42). -/
theorem readByte_zeroLanes {i : Nat} (h : i < 200) : readByte zeroLanes i = some 0#8 := by
  rw [readByte_of_lt _ h]
  simp [zeroLanes, laneByte]

/-- Settles O1: lanes and bytes by their laws, the registers by the definition of the reset state. -/
theorem resetStateHoldsTheStatedValues : Obligations.ResetStateHoldsTheStatedValues :=
  ⟨laneAt_zeroLanes, fun _ => readByte_zeroLanes, rfl, rfl, rfl, rfl, rfl, rfl, by decide, rfl, rfl⟩

/-- The event of a step is the acceptance of a command exactly when the command is presented and BUSY = 0 (R33). -/
theorem eventOf_eq_accept_iff (s : State) (c : Command) (rest : List HostMove) :
    eventOf s = .accept c rest ↔ Accepts s c rest := by
  unfold eventOf Accepts
  rcases s.host with _ | ⟨_ | _ | c', rest'⟩ <;> cases s.busy <;> simp

/-- `cmd_ready` is NOT BUSY where a command is presented (R33). -/
theorem cmdReady_of_command {s : State} {c : Command} {rest : List HostMove} (h : s.host = .command c :: rest) :
    s.cmdReady = !s.busy := by
  simp [State.cmdReady, State.rst, h]

/-- Settles O5: acceptance is the event of a step exactly when a command is presented and BUSY = 0, which is `cmd_ready`. -/
theorem commandIsAcceptedExactlyWhenReady : Obligations.CommandIsAcceptedExactlyWhenReady := by
  intro s
  refine ⟨fun h => by simp [State.cmdReady, h], fun h => by simp [State.cmdReady, h], fun c rest hh => ?_, fun c rest he => ?_⟩
  · simp only [eventOf_eq_accept_iff, cmdReady_of_command hh, Bool.not_eq_true']
    exact ⟨fun ⟨_, ha⟩ => ha.2, fun hb => ⟨rest, hh, hb⟩⟩
  · obtain ⟨hh, hb⟩ := (eventOf_eq_accept_iff s c rest).1 he
    exact ⟨by simp [cmdReady_of_command hh, hb], hh⟩

/-- Each round constant is the one the LFSR generates (R37). -/
theorem roundConstant_eq_generated (i : Fin 24) : roundConstant i = generatedRoundConstant i.val := by
  revert i; decide

/-- The rotation offset at each position of the walk is its triangular number modulo 64 (R38). -/
theorem rotationOffset_walk (t : Fin 24) :
    rotationOffset (walk t.val).2 (walk t.val).1 = ((t.val + 1) * (t.val + 2) / 2) % 64 := by
  revert t; decide

/-- Settles O21: the two ROMs entry by entry. -/
theorem generatorsReproduceTheRoms : Obligations.GeneratorsReproduceTheRoms :=
  ⟨roundConstant_eq_generated, by decide, rotationOffset_walk⟩

/-- A field placed at bit `k`, above every bit of the word so far, adds its number times `2 ^ k`. -/
theorem toNat_or_field {m k : Nat} (v : BitVec 32) (f : BitVec m) (hk : k + m ≤ 32) (hv : v.toNat < 2 ^ k) :
    (v ||| (f.setWidth 32 <<< k)).toNat = v.toNat + 2 ^ k * f.toNat := by
  have hf : f.toNat * 2 ^ k < 2 ^ 32 := calc
    f.toNat * 2 ^ k < 2 ^ m * 2 ^ k := Nat.mul_lt_mul_of_pos_right f.isLt (Nat.two_pow_pos k)
    _ = 2 ^ (k + m) := by rw [← Nat.pow_add, Nat.add_comm]
    _ ≤ 2 ^ 32 := Nat.pow_le_pow_right (by decide) hk
  rw [BitVec.toNat_or, BitVec.toNat_shiftLeft, BitVec.toNat_setWidth_of_le (by omega), Nat.shiftLeft_eq,
    Nat.mod_eq_of_lt hf, Nat.mul_comm, Nat.or_comm, ← Nat.two_pow_add_eq_or_of_lt hv, Nat.add_comm]

/-- STATUS as a number: each field at its place, the places between them empty (R32). -/
theorem status_toNat (s : State) :
    s.status.toNat = s.busy.toNat + 2 ^ 1 * s.phase.code.toNat + 2 ^ 4 * s.errcode.code.toNat + 2 ^ 8 * s.round.toNat +
      2 ^ 16 * s.pos.toNat := by
  have hb := s.busy.toNat_lt
  have hp := s.phase.code.isLt
  have he := s.errcode.code.isLt
  have hr := s.round.isLt
  have h0 : ((BitVec.ofBool s.busy).setWidth 32).toNat = s.busy.toNat := by cases s.busy <;> rfl
  have h1 := toNat_or_field (k := 1) _ s.phase.code (by decide) (by omega : ((BitVec.ofBool s.busy).setWidth 32).toNat < _)
  have h2 := toNat_or_field (k := 4) _ s.errcode.code (by decide) (by rw [h1]; omega)
  have h3 := toNat_or_field (k := 8) _ s.round (by decide) (by rw [h2]; omega)
  have h4 := toNat_or_field (k := 16) _ s.pos (by decide) (by rw [h3]; omega)
  rw [State.status, h4, h3, h2, h1, h0]
/-- Bits `[k+m-1 : k]` of a word, from its number. -/
theorem extractLsb'_eq_of_toNat {w m k : Nat} {v : BitVec w} {f : BitVec m} (h : v.toNat / 2 ^ k % 2 ^ m = f.toNat) :
    v.extractLsb' k m = f := by
  apply BitVec.eq_of_toNat_eq
  rw [BitVec.extractLsb'_toNat, Nat.shiftRight_eq_div_pow, h]

/-- Settles O46: each field of STATUS from its number, and the codes by evaluation. -/
theorem statusFieldsCopyTheRegisters : Obligations.StatusFieldsCopyTheRegisters := by
  refine ⟨fun s => ?_, by decide, by decide, by decide⟩
  have hb := s.busy.toNat_lt
  have hp := s.phase.code.isLt
  have he := s.errcode.code.isLt
  have hr := s.round.isLt
  have hs := s.pos.isLt
  refine ⟨?_, ?_, ?_, ?_, ?_, ?_, ?_, ?_⟩
  all_goals
    apply extractLsb'_eq_of_toNat
    simp only [status_toNat, BitVec.toNat_ofBool, BitVec.toNat_ofNat]
    omega

end Sys2Proof.Machine
end

section
/-! PROOFS. The statements about memory accesses (20_memory.md): the order of ABSORB's bytes, which commands are idempotent, and what
the commands leave unchanged. -/

namespace Sys2Proof.Machine

/-! ## ABSORB byte by byte (R53) -/

/-- Byte `n` of the data operand moved down by one byte is byte `n + 1` (R52). -/
theorem dataByte_ushiftRight (d : DataWord) (n : Nat) : dataByte (d >>> 8) n = dataByte d (n + 1) := by
  apply BitVec.eq_of_getLsbD_eq
  intro i hi
  simp only [dataByte, BitVec.getLsbD_extractLsb', BitVec.getLsbD_ushiftRight]
  rw [show 8 + (8 * n + i) = 8 * (n + 1) + i by omega]

/-- XORing `n + 1` data bytes in is XORing in the first and then the others, one address up (R53). -/
theorem xorBytes_succ_first (a : Lanes) (base : Nat) (d : DataWord) (n : Nat) :
    xorBytes a base d (n + 1) = (xorBytes a base d 1).bind fun a' => xorBytes a' (base + 1) (d >>> 8) n := by
  induction n with
  | zero => simp [xorBytes]
  | succ n ih =>
    rw [xorBytes, ih, Option.bind_assoc]
    simp only [xorBytes, dataByte_ushiftRight, show base + 1 + n = base + (n + 1) by omega]

/-- ABSORB with every check passed runs its own rule (R172). -/
theorem exec_absorb_runs {s : State} {n : Nat} (d : DataWord) (hp : s.phase = .absorb) (h1 : 1 ≤ n) (h8 : n ≤ 8)
    (hfit : s.pos.toNat + n ≤ 136) : exec (.absorb n d) s = absorbRule n d s :=
  checked_runs (by simp [hp]) (by simp [hp, legalIn]) ((countLegal_iff n).2 ⟨h1, h8⟩) ((chunkFits_iff s.pos n).2 hfit)

/-- ABSORB's rule on `n + 1` bytes is its rule on the last `n` from where the first byte leaves the state (R53). -/
theorem absorbRule_after_first {s : State} {a : Lanes} {d : DataWord} {n : Nat}
    (ha : xorBytes s.lanes s.pos.toNat d 1 = some a) (hfit : s.pos.toNat + (n + 1) ≤ 136) :
    absorbRule n (d >>> 8) (setPos (s.pos + 1#8) (setLanes a s)) = absorbRule (n + 1) d s := by
  have hpos : (s.pos + 1#8).toNat = s.pos.toNat + 1 := by bv_omega
  obtain ⟨b, hb, -⟩ := xorBytes_spec s.lanes s.pos.toNat d (n + 1) (by omega)
  have hb' : xorBytes a (s.pos + 1#8).toNat (d >>> 8) n = some b := by
    rw [hpos, ← hb, xorBytes_succ_first, ha, Option.bind_some]
  by_cases hend : s.pos.toNat + (n + 1) = 136
  · rw [absorbRule_full hb hend, absorbRule_full hb' (by rw [setPos_pos, hpos]; omega)]
    rfl
  · rw [absorbRule_partial hb hend, absorbRule_partial hb' (by rw [setPos_pos, hpos]; omega), setPos_pos,
      BitVec.add_assoc, ← BitVec.ofNat_add, Nat.add_comm 1 n]
    rfl

/-- Settles O29: the first byte stays inside the block, and the rule on the other bytes continues from there. -/
theorem absorbIsOneByteAfterAnother : Obligations.AbsorbIsOneByteAfterAnother := by
  intro s n d hp h2 h8 hfit
  obtain ⟨m, rfl⟩ : ∃ m, n = m + 1 := ⟨n - 1, by omega⟩
  obtain ⟨a, ha, -⟩ := xorBytes_spec s.lanes s.pos.toNat d 1 (by omega)
  have hpos : (s.pos + 1#8).toNat = s.pos.toNat + 1 := by bv_omega
  refine ⟨setPos (s.pos + 1#8) (setLanes a s), ?_, ?_⟩
  · rw [exec_absorb_runs d hp (by omega) (by omega) (by omega), absorbRule_partial ha (by omega)]
  · rw [Nat.add_sub_cancel]
    calc exec (.absorb m (d >>> 8)) (setPos (s.pos + 1#8) (setLanes a s))
        = absorbRule m (d >>> 8) (setPos (s.pos + 1#8) (setLanes a s)) :=
          exec_absorb_runs _ hp (by omega) (by omega) (by rw [setPos_pos, hpos]; omega)
      _ = absorbRule (m + 1) d s := absorbRule_after_first ha hfit
      _ = exec (.absorb (m + 1) d) s := (exec_absorb_runs d hp (by omega) h8 hfit).symm

/-! ## Idempotent commands (R58) -/

/-- A checked command is idempotent where its own rule is and keeps the phase: in the ERROR phase, an error's included, the second
one has no effect. -/
theorem checked_idempotent {o : Op} {a f : Bool} {rule : State → Host.Outcome State Fault Refusal} {s t : State}
    (hrule : rule s = .next t → t.phase = s.phase ∧ rule t = .next t) (h : checked o a f rule s = .next t) :
    checked o a f rule t = .next t := by
  rcases checked_inv h with ⟨hp, rfl⟩ | ⟨-, c, -, rfl⟩ | ⟨hp, hl, ha, hf, hr⟩
  · exact checked_error hp
  · exact checked_error (raiseError_phase c s)
  · obtain ⟨hphase, hagain⟩ := hrule hr
    rw [checked_runs (by rwa [hphase]) (by rwa [hphase]) ha hf, hagain]

@[simp] theorem setLanes_setLanes (a b : Lanes) (s : State) : setLanes a (setLanes b s) = setLanes a s := rfl
@[simp] theorem setResult_setResult (v w : Lane) (s : State) : setResult v (setResult w s) = setResult v s := rfl

/-- A repeated lane write changes nothing (R103). -/
theorem writeLane_idempotent {a b : Lanes} {l : Nat} {v : Lane} (h : writeLane a l v = some b) : writeLane b l v = some b := by
  unfold writeLane at h ⊢
  split at h <;> cases h
  next hl => simp [hl]

/-- SETLANE's rule repeated changes nothing (R103). -/
theorem setlaneRule_idempotent {s t : State} {l : Nat} {d : DataWord} (h : setlaneRule l d s = .next t) :
    t.phase = s.phase ∧ setlaneRule l d t = .next t := by
  obtain ⟨a, ha, rfl⟩ := setlaneRule_inv h
  exact ⟨rfl, by simp [setlaneRule, writeLane_idempotent ha]⟩

/-- GETLANE's rule repeated changes nothing: RESULT is no lane (R58). -/
theorem getlaneRule_idempotent {s t : State} {l : Nat} (h : getlaneRule l s = .next t) :
    t.phase = s.phase ∧ getlaneRule l t = .next t := by
  obtain ⟨v, hv, rfl⟩ := getlaneRule_inv h
  exact ⟨rfl, by simp [getlaneRule, hv]⟩

/-- SQUEEZE's rule repeated changes nothing: RESULT is no lane (R58). -/
theorem squeezeRule_idempotent {s t : State} {k : Nat} (h : squeezeRule k s = .next t) :
    t.phase = s.phase ∧ squeezeRule k t = .next t := by
  obtain ⟨v, hv, rfl⟩ := squeezeRule_inv h
  exact ⟨rfl, by simp [squeezeRule, hv]⟩

/-- Settles O36: NOP and the restarts by what they answer, the checked commands by their rules. -/
theorem repeatingAnIdempotentCommandChangesNothing : Obligations.RepeatingAnIdempotentCommandChangesNothing := by
  intro i s t hi h
  cases i with
  | nop => rfl
  | init => cases h; rfl
  | clear => cases h; rfl
  | squeeze k => exact checked_idempotent squeezeRule_idempotent h
  | setlane l d => exact checked_idempotent setlaneRule_idempotent h
  | getlane l => exact checked_idempotent getlaneRule_idempotent h
  | absorb n d => simp [Instr.op] at hi
  | final => simp [Instr.op] at hi
  | permute => simp [Instr.op] at hi

/-! ## What the commands leave unchanged (R51) -/

/-- Everything NOP, SQUEEZE, PERMUTE and GETLANE can do: nothing, an error entry, starting the engine by PERMUTE alone, or a read
into RESULT by SQUEEZE and GETLANE alone. -/
theorem exec_inv_of_stores_nothing {i : Instr} {s t : State} (hi : i.op ∈ [Op.nop, .squeeze, .permute, .getlane])
    (h : exec i s = .next t) :
    t = s ∨ (s.phase ≠ .error ∧ ∃ c, t = raiseError c s) ∨ (i = .permute ∧ t = startPermutation s) ∨
    (i.op ∈ [Op.squeeze, .getlane] ∧ ∃ v, t = setResult v s) := by
  rcases exec_inv h with ⟨-, e⟩ | ⟨hp, -, c, -, e⟩ | ⟨rfl, -⟩ | ⟨rfl, -⟩ | ⟨-, n, d, a, rfl, -⟩ | ⟨-, rfl, -⟩ |
    ⟨-, k, v, rfl, -, e⟩ | ⟨-, e⟩ | ⟨-, l, d, a, rfl, -⟩ | ⟨-, l, v, rfl, -, -, e⟩
  · exact .inl e
  · exact .inr (.inl ⟨hp, c, e⟩)
  · simp [Instr.op] at hi
  · simp [Instr.op] at hi
  · simp [Instr.op] at hi
  · simp [Instr.op] at hi
  · exact .inr (.inr (.inr ⟨by simp [Instr.op], v, e⟩))
  · exact .inr (.inr (.inl e))
  · simp [Instr.op] at hi
  · exact .inr (.inr (.inr ⟨by simp [Instr.op], v, e⟩))

/-- Settles O37: field by field in each case of what the four commands can do. -/
theorem frameOfCommandsThatStoreNothing : Obligations.FrameOfCommandsThatStoreNothing := by
  intro i s t hi h
  rcases exec_inv_of_stores_nothing hi h with rfl | ⟨hp, c, rfl⟩ | ⟨rfl, rfl⟩ | ⟨hread, v, rfl⟩
  · exact ⟨fun _ => rfl, rfl, rfl, rfl, fun _ => rfl, fun _ => ⟨rfl, rfl⟩, .inl ⟨rfl, rfl⟩⟩
  · exact ⟨fun _ => rfl, rfl, rfl, rfl, fun _ => rfl, fun _ => ⟨rfl, rfl⟩, .inr ⟨hp, rfl⟩⟩
  · exact ⟨fun _ => rfl, rfl, rfl, rfl, fun _ => rfl, fun hne => absurd rfl hne, .inl ⟨rfl, rfl⟩⟩
  · have hno : ¬(i.op = .nop ∨ i.op = .permute) := by rintro (e | e) <;> simp [e] at hread
    exact ⟨fun _ => rfl, rfl, rfl, rfl, fun hop => absurd hop hno, fun _ => ⟨rfl, rfl⟩, .inl ⟨rfl, rfl⟩⟩

/-- FINAL's padding needs POS to name a byte of the state (R50). -/
theorem lt_of_xorPadding {a a' : Lanes} {p : Nat} (h : xorPadding a p = some a') : p < 200 := by
  by_contra hp
  rw [xorPadding_of_ge a (by omega)] at h
  cases h

/-- Settles O38: each command by what its checks let it do, its bytes by the rule that stores them. -/
theorem frameOfStoringCommands : Obligations.FrameOfStoringCommands := by
  refine ⟨fun s t n d h => ?_, fun s t h => ?_, fun s t l d h => ?_⟩
  · rcases checked_inv h with ⟨-, rfl⟩ | ⟨hp, c, -, rfl⟩ | ⟨-, -, -, hfit, hrule⟩
    · exact ⟨fun _ _ => rfl, rfl, rfl, rfl, .inl ⟨rfl, rfl⟩⟩
    · exact ⟨fun _ _ => rfl, rfl, rfl, rfl, .inr ⟨hp, rfl⟩⟩
    · obtain ⟨a, ha, ht⟩ := absorbRule_inv hrule
      rw [chunkFits_iff] at hfit
      have hbytes : ∀ k, k < s.pos.toNat ∨ s.pos.toNat + n ≤ k → readByte a k = readByte s.lanes k :=
        fun k hk => readByte_of_xorBytes ha (by omega) hk
      rcases ht with ⟨-, rfl⟩ | ⟨-, rfl⟩
      · exact ⟨hbytes, rfl, rfl, rfl, .inl ⟨rfl, rfl⟩⟩
      · exact ⟨hbytes, rfl, rfl, rfl, .inl ⟨rfl, rfl⟩⟩
  · rcases checked_inv h with ⟨-, rfl⟩ | ⟨hp, c, -, rfl⟩ | ⟨-, -, -, -, hrule⟩
    · exact ⟨fun _ _ _ => rfl, rfl, rfl, rfl, .inl rfl⟩
    · exact ⟨fun _ _ _ => rfl, rfl, rfl, rfl, .inr ⟨hp, rfl⟩⟩
    · obtain ⟨a, ha, rfl⟩ := finalRule_inv hrule
      exact ⟨fun k => readByte_of_xorPadding ha (lt_of_xorPadding ha), rfl, rfl, rfl, .inl rfl⟩
  · rcases checked_inv h with ⟨-, rfl⟩ | ⟨hp, c, -, rfl⟩ | ⟨-, -, -, -, hrule⟩
    · exact ⟨fun _ _ => rfl, rfl, rfl, rfl, rfl, rfl, rfl, .inl ⟨rfl, rfl⟩⟩
    · exact ⟨fun _ _ => rfl, rfl, rfl, rfl, rfl, rfl, rfl, .inr ⟨hp, rfl⟩⟩
    · obtain ⟨a, ha, rfl⟩ := setlaneRule_inv hrule
      exact ⟨fun k => readByte_of_writeLane ha, rfl, rfl, rfl, rfl, rfl, rfl, .inl ⟨rfl, rfl⟩⟩

end Sys2Proof.Machine
end

section
/-! PROOFS. The statements about the encoding (30_encoding.md): the opcode map as a partition of the legal words, decoder and encoder as
inverses, the accepted word, the assembler's lines and its text. -/

namespace Sys2Proof

/-! ## The opcode map: what a row selects, what it reads (R73 to R76) -/

theorem mem_opcodeMap (o : Op) : o ∈ opcodeMap := by
  cases o <;> decide

/-- What holds of every row, row by row of the opcode map. -/
theorem forall_op_iff {P : Op → Prop} : (∀ o, P o) ↔ ∀ o ∈ opcodeMap, P o :=
  ⟨fun h o _ => h o, fun h o => h o (mem_opcodeMap o)⟩

@[simp] theorem op_instr (o : Op) (w : CmdWord) (d : DataWord) : (o.instr w d).op = o := by
  cases o <;> rfl

/-- The operand the decoder reads is the number in the row's named ARG bits (R71, R73). -/
@[simp] theorem arg_instr (o : Op) (w : CmdWord) (d : DataWord) : (o.instr w d).arg = w.toNat % 2 ^ o.argBits := by
  cases o with
  | absorb => exact fieldN_eq w
  | squeeze => exact fieldK_eq w
  | setlane => exact fieldL_eq w
  | getlane => exact fieldL_eq w
  | nop | init | clear | final | permute => exact (Nat.mod_one _).symm

/-- The decoder keeps the data operand for ABSORB and SETLANE alone (R72). -/
theorem dataOperand_instr (o : Op) (w : CmdWord) (d : DataWord) :
    (o.instr w d).dataOperand = if o = .absorb ∨ o = .setlane then d else 0#64 := by
  cases o <;> rfl

/-- A command is well formed exactly when its operand fits the row's named ARG bits (R71). -/
theorem wf_iff (i : Instr) : i.wf = true ↔ i.arg < 2 ^ i.op.argBits := by
  cases i <;> simp [Instr.wf, Instr.arg, Instr.op, Op.argBits]

/-- What a row reads from a word fits the row's field (R73). -/
theorem wf_instr (o : Op) (w : CmdWord) (d : DataWord) : (o.instr w d).wf = true := by
  rw [wf_iff, arg_instr, op_instr]
  exact Nat.mod_lt _ (Nat.two_pow_pos _)

/-- A command is determined by its row, its operand and its data operand (R71, R72). -/
theorem instr_ext {i j : Instr} (hop : i.op = j.op) (harg : i.arg = j.arg) (hdata : i.dataOperand = j.dataOperand) : i = j := by
  cases i <;> cases j <;> simp_all [Instr.op, Instr.arg, Instr.dataOperand]

/-- The data operand is 0 where the command has none (R82). -/
theorem dataOperand_eq_if (i : Instr) :
    i.dataOperand = if i.op = .absorb ∨ i.op = .setlane then i.dataOperand else 0#64 := by
  cases i <;> rfl

/-- The word's row is the only one that selects it (R74). -/
theorem selects_eq_decide {o : Op} {w : CmdWord} (h : o.selects w = true) (p : Op) : p.selects w = decide (p = o) := by
  rw [Bool.eq_iff_iff, decide_eq_true_iff]
  exact ⟨fun hp => selects_unique hp h, fun e => e ▸ h⟩

/-- Words of one row that agree in the row's named ARG bits are one word (R71, R74). -/
theorem eq_of_selects {o : Op} {v w : CmdWord} (hv : o.selects v = true) (hw : o.selects w = true)
    (harg : v.toNat % 2 ^ o.argBits = w.toNat % 2 ^ o.argBits) : v = w := by
  rw [selects_iff] at hv hw
  apply BitVec.eq_of_toNat_eq
  rw [← Nat.div_add_mod v.toNat (2 ^ o.argBits), ← Nat.div_add_mod w.toNat (2 ^ o.argBits), hv, hw, harg]

/-- A word decodes exactly when a row selects it (R76). -/
theorem decodes_iff (w : CmdWord) (d : DataWord) : (∃ i, decode w d = .ok i) ↔ ∃ o : Op, o.selects w = true :=
  ⟨fun ⟨i, hi⟩ => ⟨i.op, (decode_ok hi).1⟩, fun ⟨o, ho⟩ => ⟨o.instr w d, decode_of_selects ho d⟩⟩

/-! ## The encoder's words -/

/-- What holds of the encoder's word of each command: it is in the command's row alone, and its low bits hold the operand. -/
theorem encodesInRow (i : Instr) : Laws.EncodesInRow.Statement i := by
  cases i with
  | nop => exact Laws.EncodesInRow.nop
  | init => exact Laws.EncodesInRow.init
  | clear => exact Laws.EncodesInRow.clear
  | absorb n d => exact Laws.EncodesInRow.absorb n d
  | final => exact Laws.EncodesInRow.final
  | squeeze k => exact Laws.EncodesInRow.squeeze k
  | permute => exact Laws.EncodesInRow.permute
  | setlane l d => exact Laws.EncodesInRow.setlane l d
  | getlane l => exact Laws.EncodesInRow.getlane l

/-- The encoder's word of a well-formed command selects the command's row (R74). -/
theorem selects_encode {i : Instr} (h : i.wf = true) : i.op.selects (encode i).word = true := by
  rw [(encodesInRow i h).1 i.op, decide_eq_true_iff]

/-- The row's named ARG bits of that word hold the operand (R71). -/
theorem encode_word_arg {i : Instr} (h : i.wf = true) : (encode i).word.toNat % 2 ^ i.op.argBits = i.arg := by
  have hdvd : 2 ^ i.op.argBits ∣ 32 := by cases i.op <;> decide
  rw [← Nat.mod_mod_of_dvd _ hdvd, (encodesInRow i h).2, Nat.mod_eq_of_lt ((wf_iff i).1 h)]

/-- Decoding the encoder's words: the row they select reads the operand and the data operand back. -/
theorem decode_encode {i : Instr} (h : i.wf = true) : decode (encode i).word (encode i).data = .ok i := by
  rw [decode_of_selects (selects_encode h)]
  refine congrArg Except.ok (instr_ext (op_instr ..) ?_ ?_)
  · rw [arg_instr, encode_word_arg h]
  · rw [dataOperand_instr, dataOperand_eq_if i]; rfl

/-- A decoded command is well formed: the operand was read from its field (R73). -/
theorem wf_of_decode {w : CmdWord} {d : DataWord} {i : Instr} (h : decode w d = .ok i) : i.wf = true := by
  rw [(decode_ok h).2]
  exact wf_instr i.op w d

/-- Encoding a decoded command gives its word: both are in the command's row and hold the same operand. -/
theorem encode_word_of_decode {w : CmdWord} {d : DataWord} {i : Instr} (h : decode w d = .ok i) : (encode i).word = w := by
  have hwf := wf_of_decode h
  obtain ⟨hsel, hi⟩ := decode_ok h
  refine eq_of_selects (selects_encode hwf) hsel ?_
  rw [encode_word_arg hwf, hi, arg_instr, op_instr]

end Sys2Proof

namespace Sys2Proof.Machine

/-! ## Decoder and encoder -/

/-- Settles O8: the row the word selects reads the operands back. -/
theorem decodeOfEncodeIsTheCommand : Obligations.DecodeOfEncodeIsTheCommand := fun _ => decode_encode

/-- Settles O9: the encoder's word is in the row of the given word and holds the same operand. -/
theorem encodeOfDecodeIsTheWord : Obligations.EncodeOfDecodeIsTheWord := by
  intro w d i h
  refine ⟨wf_of_decode h, encode_word_of_decode h, ?_⟩
  obtain ⟨-, hi⟩ := decode_ok h
  calc (encode i).data = (i.op.instr w d).dataOperand := congrArg Instr.dataOperand hi
    _ = _ := dataOperand_instr i.op w d

/-! ## Every word is legal or reserved (R75, R76) -/

/-- A word is reserved exactly when no row selects it: R75's words on OPC and ARG, against each row's bits (R74). -/
theorem reservedWord_iff (w : CmdWord) : ReservedWord w ↔ ∀ o : Op, o.selects w = false := by
  have hw := w.isLt
  rw [forall_op_iff]
  simp only [Bool.eq_false_iff, ne_eq, selects_iff, opcodeMap, List.forall_mem_cons, Op.argBits, Op.pattern, BitVec.toNat_ofNat,
    List.not_mem_nil, false_implies, implies_true, and_true]
  simp only [ReservedWord, List.mem_cons, List.not_mem_nil, or_false]
  omega

/-- Settles O7: no row selects a reserved word, and the row of any other word is its only one. -/
theorem everyWordSelectsOneRowOrIsIllegal : Obligations.EveryWordSelectsOneRowOrIsIllegal := by
  intro w d
  by_cases hr : ReservedWord w
  · have hnone := (reservedWord_iff w).1 hr
    exact .inl ⟨hr, hnone, decode_of_not_selects hnone d⟩
  · obtain ⟨o, ho⟩ : ∃ o : Op, o.selects w = true := by simpa [reservedWord_iff] using hr
    refine .inr ⟨hr, o.instr w d, decode_of_selects ho d, ?_⟩
    rw [op_instr]
    exact selects_eq_decide ho

/-! ## The legal words, counted row by row (R75) -/

/-- The words of a row: the encodings of its commands, one for each number in the row's named ARG bits. -/
def rowWords (o : Op) : List CmdWord :=
  (List.range (2 ^ o.argBits)).map fun a => (encode (o.instr (BitVec.ofNat 16 a) 0#64)).word

/-- A number that fits the row's named ARG bits is read back from them. -/
theorem arg_instr_ofNat {o : Op} {a : Nat} (ha : a < 2 ^ o.argBits) (d : DataWord) :
    (o.instr (BitVec.ofNat 16 a) d).arg = a := by
  have hdvd : 2 ^ o.argBits ∣ 2 ^ 16 := by cases o <;> decide
  rw [arg_instr, BitVec.toNat_ofNat, Nat.mod_mod_of_dvd _ hdvd, Nat.mod_eq_of_lt ha]

/-- The words of a row are those that select it (R74). -/
theorem mem_rowWords_iff (o : Op) (w : CmdWord) : w ∈ rowWords o ↔ o.selects w = true := by
  simp only [rowWords, List.mem_map, List.mem_range]
  constructor
  · rintro ⟨a, -, rfl⟩
    simpa using selects_encode (wf_instr o (BitVec.ofNat 16 a) 0#64)
  · intro h
    have ha : w.toNat % 2 ^ o.argBits < 2 ^ o.argBits := Nat.mod_lt _ (Nat.two_pow_pos _)
    refine ⟨_, ha, ?_⟩
    have hi : o.instr (BitVec.ofNat 16 (w.toNat % 2 ^ o.argBits)) 0#64 = o.instr w 0#64 :=
      instr_ext (by simp) (by rw [arg_instr_ofNat ha, arg_instr]) (by simp [dataOperand_instr])
    rw [hi, encode_word_of_decode (decode_of_selects h 0#64)]

/-- A row's words are distinct: each holds its own number. -/
theorem nodup_rowWords (o : Op) : (rowWords o).Nodup := by
  refine List.Nodup.map_on (fun a ha b hb h => ?_) List.nodup_range
  rw [List.mem_range] at ha hb
  have harg := congrArg (fun w : CmdWord => w.toNat % 2 ^ o.argBits) h
  have hword := fun c => encode_word_arg (wf_instr o (BitVec.ofNat 16 c) 0#64)
  simp only [op_instr] at hword
  rwa [hword, hword, arg_instr_ofNat ha, arg_instr_ofNat hb] at harg

/-- Distinct rows share no word (R74). -/
theorem disjoint_rowWords {o p : Op} (h : o ≠ p) : (rowWords o).Disjoint (rowWords p) := by
  intro w ho hp
  rw [mem_rowWords_iff] at ho hp
  exact h (selects_unique ho hp)

/-- Settles O10: the words of the nine rows, 1 + 1 + 1 + 16 + 1 + 4 + 1 + 32 + 32 of them. -/
theorem eightyNineWordsAreLegal : Obligations.EightyNineWordsAreLegal := by
  have hlen : (opcodeMap.flatMap rowWords).length = 89 := by simp [rowWords, opcodeMap, Op.argBits]
  refine ⟨opcodeMap.flatMap rowWords, ?_, hlen, by rw [hlen], fun w d => ?_⟩
  · rw [List.nodup_flatMap]
    exact ⟨fun o _ => nodup_rowWords o, (by decide : opcodeMap.Nodup).imp disjoint_rowWords⟩
  · simp only [List.mem_flatMap, mem_opcodeMap, true_and, mem_rowWords_iff, decodes_iff]

/-- Settles O11: each word selects its row, which reads its operands; the two ILLEGAL words by evaluation. -/
theorem workedEncodingsDecodeAsStated : Obligations.WorkedEncodingsDecodeAsStated :=
  ⟨decode_of_selects (o := .init) (by decide), decode_of_selects (o := .absorb) (by decide) _,
    decode_of_selects (o := .final) (by decide), decode_of_selects (o := .squeeze) (by decide),
    decode_of_selects (o := .permute) (by decide), decode_of_selects (o := .setlane) (by decide),
    decode_of_selects (o := .getlane) (by decide), decode_of_selects (o := .absorb) (by decide) _, by decide, by decide⟩

/-! ## The accepted word (R80, R72) -/

/-- A step that accepts a word that decodes runs the command (R80). -/
theorem step_of_decode {s : State} {c : Command} {rest : List HostMove} (ha : Accepts s c rest) {i : Instr}
    (hi : decode c.word c.data = .ok i) : step s = exec i (takeCommand rest s) := by
  rw [step_accept ha.1 ha.2, accept_ok rest s hi]

/-- A step that accepts an ILLEGAL word (R80). -/
theorem step_of_decode_error {s : State} {c : Command} {rest : List HostMove} (ha : Accepts s c rest) {e : DecodeError}
    (he : decode c.word c.data = .error e) : step s = .next (illegalWord (takeCommand rest s)) := by
  rw [step_accept ha.1 ha.2, accept_error rest s he]

/-- An ILLEGAL word has no effect in the ERROR phase (R223). -/
theorem illegalWord_of_error {s : State} (h : s.phase = .error) : illegalWord s = s := if_pos h

/-- An ILLEGAL word raises ILLEGAL outside the ERROR phase (R222). -/
theorem illegalWord_of_not_error {s : State} (h : s.phase ≠ .error) : illegalWord s = raiseError .illegal s := if_neg h

/-- Settles O3: by what the word decodes to, and for an ILLEGAL word by the phase. -/
theorem stepRunsTheDecodedCommand : Obligations.StepRunsTheDecodedCommand := by
  intro s w d rest ha
  refine ⟨fun i hi => step_of_decode ha hi, fun e he hp => ?_, fun e he hp => ?_⟩
  · rw [step_of_decode_error ha he, illegalWord_of_not_error (s := takeCommand rest s) hp]; rfl
  · rw [step_of_decode_error ha he, illegalWord_of_error (s := takeCommand rest s) hp]; rfl

/-- A checked command depends on its rule only where the checks let the rule run (R80). -/
theorem checked_congr {o : Op} {a f : Bool} {rule rule' : State → Host.Outcome State Fault Refusal} {s : State}
    (h : a = true → f = true → rule s = rule' s) : checked o a f rule s = checked o a f rule' s := by
  cases a <;> cases f <;> simp [checked, h]

/-- ABSORB's XOR depends on the data bytes it uses alone (R72). -/
theorem xorBytes_congr (a : Lanes) (base : Nat) {d d' : DataWord} {n : Nat} (h : ∀ j < n, dataByte d j = dataByte d' j) :
    xorBytes a base d n = xorBytes a base d' n := by
  induction n with
  | zero => rfl
  | succ n ih => rw [xorBytes, xorBytes, ih fun j hj => h j (by omega), h n (by omega)]

/-- ABSORB of N bytes does the same with two data operands that agree on the first N of their 8 bytes (R72). -/
theorem exec_absorb_congr {d d' : DataWord} {n : Nat} (s : State) (h : ∀ j, j < n → j < 8 → dataByte d j = dataByte d' j) :
    exec (.absorb n d) s = exec (.absorb n d') s := by
  refine checked_congr fun hn _ => ?_
  obtain ⟨-, h8⟩ := (countLegal_iff n).1 hn
  unfold absorbRule
  rw [xorBytes_congr s.lanes s.pos.toNat fun j hj => h j hj (by omega)]

/-- The command a row reads from a word does the same with either data operand, where they agree on the bits it uses (R72). -/
theorem exec_instr_congr {o : Op} {w : CmdWord} {d d' : DataWord} (s : State)
    (habs : o = .absorb → ∀ j, j < w.toNat % 16 → j < 8 → dataByte d j = dataByte d' j)
    (hset : o = .setlane → d = d') : exec (o.instr w d) s = exec (o.instr w d') s := by
  cases o with
  | absorb => exact exec_absorb_congr s (by simpa only [fieldN_eq] using habs rfl)
  | setlane => rw [hset rfl]
  | nop | init | clear | final | squeeze | permute | getlane => rfl

/-- OPC of a word that selects a row is the row's (R74). -/
theorem opc_of_selects {o : Op} {w : CmdWord} (h : o.selects w = true) : w.toNat / 4096 = o.pattern.toNat / 4096 := by
  rw [selects_iff] at h
  cases o <;> simp only [Op.argBits, Op.pattern, BitVec.toNat_ofNat] at h ⊢ <;> omega

/-- A step at which the host presents a command with BUSY = 0 accepts it, whatever the host drove before (R33). -/
theorem step_presented {s : State} (hb : s.busy = false) (c : Command) (rest : List HostMove) :
    step { s with host := .command c :: rest } = accept c rest s :=
  (step_accept (s := { s with host := .command c :: rest }) rfl hb).trans (by simp only [accept, takeCommand])

/-- Settles O12: by the row the word selects, or none. -/
theorem ignoredDataBitsHaveNoEffect : Obligations.IgnoredDataBitsHaveNoEffect := by
  intro s w d d' rest hb habs hset
  rw [step_presented hb, step_presented hb]
  by_cases hw : ∃ o : Op, o.selects w = true
  · obtain ⟨o, ho⟩ := hw
    rw [accept_ok rest s (decode_of_selects ho d), accept_ok rest s (decode_of_selects ho d')]
    refine exec_instr_congr (takeCommand rest s) (fun e => habs ?_) (fun e => hset ?_)
    · rw [opc_of_selects ho, e]; rfl
    · rw [opc_of_selects ho, e]; rfl
  · have hnone : ∀ o : Op, o.selects w = false := by simpa using hw
    obtain ⟨e, he⟩ := decode_of_not_selects hnone d
    obtain ⟨e', he'⟩ := decode_of_not_selects hnone d'
    rw [accept_error rest s he, accept_error rest s he']

/-! ## The assembler's lines (R82) and MESSAGE's chunks (R83) -/

/-- A legal operand fits its field (R73). -/
theorem wf_of_operandLegal {i : Instr} (h : i.operandLegal = true) : i.wf = true := by
  cases i <;> simp only [Instr.operandLegal, Instr.wf, Bool.and_eq_true, decide_eq_true_iff] at h ⊢ <;> omega

/-- Everything a line assembles to: the encoding of a command with a legal operand, or the words of `.cmd`. -/
theorem assemble_inv {l : AsmLine} {c : Command} (h : assemble l = some c) :
    (∃ i, i.operandLegal = true ∧ c = encode i) ∨ ∃ w d, l = .cmd w d := by
  cases l with
  | cmd w d => exact .inr ⟨w, d, rfl⟩
  | nop | init | clear | final | permute => exact .inl ⟨_, by decide, (Option.some.inj h).symm⟩
  | absorb n d =>
    obtain ⟨⟨h1, h8, -⟩, h⟩ := Option.ite_none_right_eq_some.1 h
    exact .inl ⟨_, by simp [Instr.operandLegal, h1, h8], (Option.some.inj h).symm⟩
  | squeeze k =>
    obtain ⟨hk, h⟩ := Option.ite_none_right_eq_some.1 h
    exact .inl ⟨_, by simp [Instr.operandLegal, hk], (Option.some.inj h).symm⟩
  | setlane x y d =>
    obtain ⟨⟨hx, hy, -⟩, h⟩ := Option.ite_none_right_eq_some.1 h
    exact .inl ⟨_, by simp only [Instr.operandLegal, decide_eq_true_iff]; omega, (Option.some.inj h).symm⟩
  | getlane x y =>
    obtain ⟨⟨hx, hy⟩, h⟩ := Option.ite_none_right_eq_some.1 h
    exact .inl ⟨_, by simp only [Instr.operandLegal, decide_eq_true_iff]; omega, (Option.some.inj h).symm⟩

/-- Settles O13: the table by the definition of `assemble`, decoding by the round trip. -/
theorem assembledLinesAreLegalCommands : Obligations.AssembledLinesAreLegalCommands := by
  refine ⟨⟨rfl, rfl, rfl, rfl, rfl⟩, fun n d => rfl, fun k => ?_, fun x y d => ?_, fun x y => ?_, fun w d => rfl,
    fun l c h hcmd => ?_, fun c => ?_⟩
  · exact if_congr Nat.lt_succ_iff rfl rfl
  · exact if_congr (and_congr Nat.lt_succ_iff (and_congr_left' Nat.lt_succ_iff)) rfl rfl
  · exact if_congr (and_congr Nat.lt_succ_iff Nat.lt_succ_iff) rfl rfl
  · obtain ⟨i, hi, rfl⟩ | ⟨w, d, rfl⟩ := assemble_inv h
    · exact ⟨i, decode_encode (wf_of_operandLegal hi), rfl, hi⟩
    · exact absurd rfl (hcmd w d)
  · simp [assemble, c.word.isLt, c.data.isLt]

/-- The line of a chunk of 1 to 8 bytes assembles to the chunk's ABSORB: its number fits its bytes (R83). -/
theorem assemble_absorbLine {c : List Byte} (h1 : 1 ≤ c.length) (h8 : c.length ≤ 8) :
    assemble (absorbLine c) = some (encode (absorbChunk c)) := by
  simp only [absorbLine, assemble, absorbChunk]
  rw [if_pos ⟨h1, h8, packBytes_lt c⟩, BitVec.ofNat_toNat, BitVec.setWidth_eq]

/-- The chunks of MESSAGE, one after another, are the message (R83). -/
theorem messageChunks_flatten (m : List Byte) : (messageChunks m).flatten = m := by
  fun_induction messageChunks m with
  | case1 b0 b1 b2 b3 b4 b5 b6 b7 rest ih => simp [ih]
  | case2 => rfl
  | case3 rest => simp

/-- A list that does not begin with 8 bytes has fewer. -/
theorem length_lt_of_not_full {m : List Byte}
    (h : ∀ b0 b1 b2 b3 b4 b5 b6 b7 rest, m = b0 :: b1 :: b2 :: b3 :: b4 :: b5 :: b6 :: b7 :: rest → False) : m.length < 8 :=
  match m, h with
  | b0 :: b1 :: b2 :: b3 :: b4 :: b5 :: b6 :: b7 :: rest, h => (h b0 b1 b2 b3 b4 b5 b6 b7 rest rfl).elim
  | [], _ | [_], _ | [_, _], _ | [_, _, _], _ | [_, _, _, _], _ | [_, _, _, _, _], _ | [_, _, _, _, _, _], _
  | [_, _, _, _, _, _, _], _ => by simp

/-- A chunk that begins at a multiple of 8 crosses no block boundary: 8 divides the rate (R83, R175). -/
theorem messageChunks_fit (m : List Byte) : ∀ o, 8 ∣ o → ChunksFit o (messageChunks m) := by
  fun_induction messageChunks m with
  | case1 b0 b1 b2 b3 b4 b5 b6 b7 rest ih =>
    intro o ho
    have hr : Config.rate = 136 := rfl
    exact ⟨by simp, by simp, by simp only [hr, List.length]; omega, ih _ (by simp only [List.length]; omega)⟩
  | case2 => exact fun _ _ => trivial
  | case3 rest hfull hne =>
    intro o ho
    have hr : Config.rate = 136 := rfl
    have h1 : 1 ≤ rest.length := List.length_pos_iff.2 hne
    have h8 := length_lt_of_not_full hfull
    exact ⟨h1, by omega, by rw [hr]; omega, trivial⟩

/-- The chunks have 1 to 8 bytes each (R175). -/
theorem length_of_chunksFit {cs : List (List Byte)} : ∀ {o : Nat}, ChunksFit o cs → ∀ c ∈ cs, 1 ≤ c.length ∧ c.length ≤ 8 := by
  induction cs with
  | nil => simp
  | cons c cs ih =>
    rintro o ⟨h1, h8, -, hrest⟩
    exact List.forall_mem_cons.2 ⟨⟨h1, h8⟩, ih hrest⟩

/-- Settles O53: the chunks by recursion on the message, their lines chunk by chunk. -/
theorem messageChunksNeverCrossABlock : Obligations.MessageChunksNeverCrossABlock := by
  intro m
  have hfit := messageChunks_fit m 0 (by simp)
  have hlines : ∀ c ∈ messageChunks m, assemble (absorbLine c) = some (encode (absorbChunk c)) := fun c hc =>
    (length_of_chunksFit hfit c hc).elim assemble_absorbLine
  refine ⟨messageChunks_flatten m, hfit, ?_⟩
  have hmap : ((messageChunks m).map absorbLine).map assemble =
      ((messageChunks m).map absorbChunk).map fun i => some (encode i) := by
    rw [List.map_map, List.map_map]
    exact List.map_congr_left hlines
  simp only [expand, hashCommands, List.map_append, hmap, List.cons_append, List.map_cons]
  rfl

/-! ## The assembler's text (R82) -/

/-- Reading a line without a quoted message stops at its comment. -/
theorem lex_comment (comment : List Char) {line : List Char} (hq : ∀ c ∈ line, c.toNat ≠ 34) :
    ∀ cur, lex none cur (line ++ ';' :: comment) = lex none cur line := by
  induction line with
  | nil => intro cur; simp [lex]
  | cons c cs ih =>
    intro cur
    obtain ⟨hc, hcs⟩ := List.forall_mem_cons.1 hq
    simp only [List.cons_append, lex, if_neg hc, ih hcs]

/-- Lowering twice is lowering once: a lowered capital, 32 up, is no capital. -/
theorem toLower_toLower (c : Char) : c.toLower.toLower = c.toLower := by
  by_cases h : c.val ≥ 'A'.val ∧ c.val ≤ 'Z'.val
  · have hup : c.toLower.val = c.val + 32 := by
      simp only [Char.toLower, dif_pos h]; rfl
    have hnot : ¬(c.toLower.val ≥ 'A'.val ∧ c.toLower.val ≤ 'Z'.val) := by
      simp only [hup, ge_iff_le, UInt32.le_iff_toNat_le, UInt32.toNat_add, UInt32.reduceToNat, Char.reduceVal] at h ⊢
      omega
    rw [Char.toLower, dif_neg hnot]
  · simp only [Char.toLower, dif_neg h]

/-- A digit is read as its value (R82). -/
theorem digitValue_digitChar {d : Nat} (h : d < 16) : digitValue (Nat.digitChar d) = some d := by
  have all : ∀ d : Fin 16, digitValue (Nat.digitChar d.val) = some d.val := by decide
  exact all ⟨d, h⟩

/-- A digit string is read as the number it writes in its base (R82). -/
theorem digits_digitChar {base : Nat} (hb : base ≤ 16) {ds : List Nat} (h : ∀ d ∈ ds, d < base) :
    ∀ n, digits base n (ds.map Nat.digitChar) = some (ds.foldl (fun n d => base * n + d) n) := by
  induction ds with
  | nil => exact fun _ => rfl
  | cons d ds ih =>
    intro n
    obtain ⟨hd, hds⟩ := List.forall_mem_cons.1 h
    simp only [List.map_cons, digits, digitValue_digitChar (hd.trans_le hb), if_pos hd, ih hds, List.foldl_cons]

/-- No digit is the letter of `0x`. -/
theorem x_notMem_digitChars {ds : List Nat} (h : ∀ d ∈ ds, d < 16) : 'x' ∉ ds.map Nat.digitChar := by
  intro hx
  obtain ⟨d, hd, e⟩ := List.mem_map.1 hx
  have hv := digitValue_digitChar (h d hd)
  simp [e, digitValue] at hv

/-- A number with no `x` in it is decimal (R82). -/
theorem number_decimal {cs : List Char} (hne : cs ≠ []) (hx : 'x' ∉ cs) : number cs = digits 10 0 cs := by
  unfold number
  split
  · simp at hx
  · rfl
  · exact absurd rfl hne

/-- A number after `0x` is hex (R82). -/
theorem number_hex {cs : List Char} (hne : cs ≠ []) : number ('0' :: 'x' :: cs) = digits 16 0 cs := by
  cases cs with
  | nil => exact absurd rfl hne
  | cons c cs => rfl

/-- Settles O14: the comment by the lexer, the case by the parser's lower-casing, the numbers digit by digit. -/
theorem assemblerTextIsReadAsStated : Obligations.AssemblerTextIsReadAsStated := by
  refine ⟨fun line comment hq => ?_, fun m operands => ?_, fun ds hne hd => ?_, fun ds hne hd => ?_⟩
  · simp only [parseLine, lex_comment comment hq]
  · simp only [parseTokens, List.map_map, Function.comp_def, toLower_toLower]
  · rw [number_decimal (by simpa using hne) (x_notMem_digitChars fun d h => (hd d h).trans (by decide)),
      digits_digitChar (by decide) hd]
  · rw [number_hex (by simpa using hne), digits_digitChar (by decide) hd]

end Sys2Proof.Machine
end

section
/-! PROOFS. The statements about rotl64 and the lane access commands SETLANE and GETLANE (41_lane_access.md), with the lemmas they rest
on. -/

namespace Sys2Proof.Machine

/-! ## rotl64 (R101, R102) -/

/-- rotl64 is the library's rotation: where the amount is 0 modulo 64, the shift by 64 that rotl64 leaves out would give 0. -/
theorem rotl64_eq_rotateLeft (v : Lane) (n : Nat) : rotl64 v n = v.rotateLeft n := by
  unfold rotl64
  split
  · next h => simp [BitVec.rotateLeft_def, h, BitVec.ushiftRight_eq_zero]
  · exact BitVec.rotateLeft_def.symm

/-- Bit `i` of the rotated lane is bit `(i - n) mod 64` of the lane (R101). -/
theorem getLsbD_rotl64 (v : Lane) (n : Nat) {i : Nat} (hi : i < 64) :
    (rotl64 v n).getLsbD i = v.getLsbD ((i + 64 - n % 64) % 64) := by
  rw [rotl64_eq_rotateLeft, BitVec.getLsbD_rotateLeft]
  by_cases h : i < n % 64
  · rw [decide_eq_true h, cond_true, show (i + 64 - n % 64) % 64 = 64 - n % 64 + i by omega]
  · rw [decide_eq_false h, cond_false, decide_eq_true hi, Bool.true_and, show (i + 64 - n % 64) % 64 = i - n % 64 by omega]

/-- Rotations compose by adding their amounts. -/
theorem rotl64_rotl64 (v : Lane) (m n : Nat) : rotl64 (rotl64 v m) n = rotl64 v (m + n) := by
  apply BitVec.eq_of_getLsbD_eq
  intro i hi
  rw [getLsbD_rotl64 _ n hi, getLsbD_rotl64 v m (by omega), getLsbD_rotl64 v (m + n) hi]
  congr 1
  omega

/-- Settles O15: the two cases of the definition, and the bit form. -/
theorem rotlMovesEveryBitUpModulo64 : Obligations.RotlMovesEveryBitUpModulo64 :=
  fun v n => ⟨fun h => if_pos h, fun h => if_neg h, fun _ hi => getLsbD_rotl64 v n hi⟩

/-- Settles O16: the amount counts modulo 64, rotations add up, and the worked values by evaluation. -/
theorem rotlLawsAndWorkedValues : Obligations.RotlLawsAndWorkedValues := by
  refine ⟨rotl64_zero_amount, fun v => rotl64_mod v 64, fun v n _ h63 => ?_, by decide, by decide, by decide,
    fun v => (rotl64_mod v 126).symm⟩
  calc rotl64 (rotl64 v n) (64 - n) = rotl64 v (n + (64 - n)) := rotl64_rotl64 v n (64 - n)
    _ = rotl64 v 64 := by rw [Nat.add_sub_cancel' (by omega)]
    _ = v := rotl64_mod v 64

/-! ## What every checked command answers where its rule does not run (R80, R81) -/

/-- In the ERROR phase a command other than NOP, INIT and CLEAR has no effect (R80). -/
theorem exec_of_error {i : Instr} {s : State} (hi : i.op ∉ [Op.nop, .init, .clear]) (hp : s.phase = .error) :
    exec i s = .next s := by
  cases i with
  | nop | init | clear => simp [Instr.op] at hi
  | absorb | final | squeeze | permute | setlane | getlane => exact checked_error hp

/-- A command that is not legal in the phase raises WRONG_PHASE (R81). -/
theorem exec_wrongPhase {i : Instr} {s : State} (hp : s.phase ≠ .error) (hl : legalIn i.op s.phase = false) :
    exec i s = .next (raiseError .wrongPhase s) := by
  cases i with
  | nop | init | clear => simp [Instr.op, legalIn] at hl
  | absorb | final | squeeze | permute | setlane | getlane => exact checked_wrongPhase hp hl

/-- A reserved word raises ILLEGAL outside the ERROR phase: it does not decode (R75). -/
theorem raisesIllegal_of_reservedWord {w : CmdWord} (h : ReservedWord w) : RaisesIllegal w := by
  intro s d rest ha hp
  obtain ⟨e, he⟩ := decode_of_not_selects ((reservedWord_iff w).1 h) d
  rw [step_of_decode_error ha he, illegalWord_of_not_error (s := takeCommand rest s) hp]
  rfl

/-! ## SETLANE (R103) -/

/-- Writing lane (x, y) by its linear index leaves every other lane as it was (R9). -/
theorem laneAt_set (a : Lanes) (x y u v : Coord) (d : Lane) :
    laneAt (a.set (5 * y.val + x.val) d) u v = if (u, v) = (x, y) then d else laneAt a u v := by
  change (a.set (laneIndex x y) d)[laneIndex u v] = _
  simp only [← laneIndex_inj, laneAt, Fin.getElem_fin, Vector.getElem_set, ← Fin.ext_iff, eq_comm]

/-- SETLANE in the IDLE phase writes the lane (R103). -/
theorem exec_setlane {s : State} {l : Nat} (d : DataWord) (hp : s.phase = .idle) (hl : l < 25) :
    exec (.setlane l d) s = .next (setLanes (s.lanes.set l d) s) :=
  (checked_runs (by simp [hp]) (by simp [hp, legalIn]) ((laneLegal_iff l).2 (by omega)) rfl).trans (setlaneRule_next hl)

/-- A word of SETLANE's row decodes to SETLANE of its low five bits (R74). -/
theorem decode_setlane {w : CmdWord} (h : w.toNat / 32 = 0x380) (d : DataWord) :
    decode w d = .ok (.setlane (w.toNat % 32) d) := by
  rw [decode_of_selects ((selects_iff .setlane w).2 h), Op.instr, fieldL_eq]

/-- Settles O33: the lane written by its coordinates, each exception by its check, the words by their row. -/
theorem setlaneWritesOneLane : Obligations.SetlaneWritesOneLane := by
  refine ⟨fun s x y d hp => ?_, fun s l d hp => ?_, fun s l d hp hl => ?_, fun s l d hp => ?_,
    fun w d hw => decode_setlane hw d, fun w hopc harg => ?_⟩
  · refine ⟨_, exec_setlane d hp (by omega), ?_, fun u v hne => ?_⟩
    · rw [laneAt_set, if_pos rfl]
    · rw [laneAt_set, if_neg hne]
  · rcases hp with hp | hp <;> exact exec_wrongPhase (by simp [hp]) (by simp [hp, legalIn, Instr.op])
  · exact checked_badArg (by simp [hp]) (by simp [hp, legalIn]) ((laneLegal_eq_false_iff l).2 hl)
  · exact exec_of_error (by simp [Instr.op]) hp
  · exact raisesIllegal_of_reservedWord (.inr (.inr (.inr (.inr ⟨.inl hopc, harg⟩))))

/-! ## GETLANE (R104) -/

/-- GETLANE is legal in every phase but ERROR (R81). -/
theorem legalIn_getlane {p : Phase} (h : p ≠ .error) : legalIn .getlane p = true := by
  cases p with
  | idle | absorb | squeeze => rfl
  | error => exact absurd rfl h

/-- GETLANE outside the ERROR phase reads the lane into RESULT (R104). -/
theorem exec_getlane {s : State} {l : Nat} (hp : s.phase ≠ .error) (hl : l < 25) :
    exec (.getlane l) s = .next (setResult s.lanes[l] s) :=
  (checked_runs hp (legalIn_getlane hp) ((laneLegal_iff l).2 (by omega)) rfl).trans (getlaneRule_next hl)

/-- SQUEEZE in the SQUEEZE phase reads lane `k` into RESULT (R180). -/
theorem exec_squeeze {s : State} {k : Nat} (hp : s.phase = .squeeze) (hk : k < 25) :
    exec (.squeeze k) s = .next (setResult s.lanes[k] s) :=
  (checked_runs (by simp [hp]) (by simp [hp, legalIn]) rfl rfl).trans (squeezeRule_next hk)

/-- A word of GETLANE's row decodes to GETLANE of its low five bits (R74). -/
theorem decode_getlane {w : CmdWord} (h : w.toNat / 32 = 0x400) (d : DataWord) : decode w d = .ok (.getlane (w.toNat % 32)) := by
  rw [decode_of_selects ((selects_iff .getlane w).2 h), Op.instr, fieldL_eq]

/-- Settles O34: the lane read by its coordinates, each exception by its check, the words by their row. -/
theorem getlaneReadsOneLane : Obligations.GetlaneReadsOneLane := by
  refine ⟨fun s x y hp => exec_getlane hp (by omega), fun s l hp hl => ?_, fun s l hp => ?_,
    fun w d hw => decode_getlane hw d, fun w hopc harg => ?_⟩
  · exact checked_badArg hp (legalIn_getlane hp) ((laneLegal_eq_false_iff l).2 hl)
  · exact exec_of_error (by simp [Instr.op]) hp
  · exact raisesIllegal_of_reservedWord (.inr (.inr (.inr (.inr ⟨.inr hopc, harg⟩))))

/-- Settles O35: both commands read lane `k` into RESULT. -/
theorem getlaneAndSqueezeAgreeInSqueeze : Obligations.GetlaneAndSqueezeAgreeInSqueeze := fun s k hp hk =>
  have hk' : k < 25 := by omega
  ⟨s.lanes[k], exec_getlane (by simp [hp]) hk', exec_squeeze hp hk'⟩

end Sys2Proof.Machine
end

section
/-! PROOFS. The statements about the round datapath (42_round_datapath.md): the linear steps, chi's inverse on a row, pi as a permutation of
the lanes, and the round of the zero array, with the lemmas they rest on. -/

namespace Sys2Proof.Machine

/-! ## Linearity over GF(2) (R129) -/

/-- The lane-wise XOR of two arrays, the addition that R129's linearity is about. -/
def xorLanes (a b : Lanes) : Lanes :=
  lanesOf fun x y => laneAt a x y ^^^ laneAt b x y

@[simp] theorem laneAt_xorLanes (a b : Lanes) (x y : Coord) : laneAt (xorLanes a b) x y = laneAt a x y ^^^ laneAt b x y :=
  laneAt_lanesOf _ x y

/-- Rotating moves bits, so it commutes with XOR. -/
theorem rotl64_xor (u v : Lane) (n : Nat) : rotl64 (u ^^^ v) n = rotl64 u n ^^^ rotl64 v n := by
  apply BitVec.eq_of_getLsbD_eq
  intro i hi
  simp only [BitVec.getLsbD_xor, getLsbD_rotl64 _ n hi]

theorem columnParity_xorLanes (a b : Lanes) (x : Coord) :
    columnParity (xorLanes a b) x = columnParity a x ^^^ columnParity b x := by
  simp only [columnParity, laneAt_xorLanes]
  ac_rfl

theorem theta_xorLanes (a b : Lanes) : theta (xorLanes a b) = xorLanes (theta a) (theta b) := by
  apply lanes_ext
  intro x y
  simp only [laneAt_theta, laneAt_xorLanes, columnParity_xorLanes, rotl64_xor]
  ac_rfl

theorem rho_xorLanes (a b : Lanes) : rho (xorLanes a b) = xorLanes (rho a) (rho b) := by
  apply lanes_ext
  intro x y
  simp only [laneAt_rho, laneAt_xorLanes, rotl64_xor]

theorem pi_xorLanes (a b : Lanes) : pi (xorLanes a b) = xorLanes (pi a) (pi b) := by
  apply lanes_ext
  intro x y
  simp only [laneAt_pi, laneAt_xorLanes]

/-- The constant is XORed in once, whichever summand iota is applied to. -/
theorem iota_xorLanes (a b : Lanes) (i : Fin 24) : iota (xorLanes a b) i = xorLanes (iota a i) b := by
  apply lanes_ext
  intro x y
  simp only [laneAt_iota, laneAt_xorLanes]
  split
  · ac_rfl
  · rfl

/-- Settles O19: each step commutes with XOR lane by lane, theta through the column parities and rho through the rotation. -/
theorem linearRoundSteps : Obligations.LinearRoundSteps := fun a b i =>
  ⟨theta_xorLanes a b, rho_xorLanes a b, pi_xorLanes a b, iota_xorLanes a b i⟩

/-! ## Chi's inverse on a row (R129) -/

/-- The inverse of chi on one row of five lanes; like chi it acts on each bit position apart. -/
def unchiRow (r : Coord → Lane) (x : Coord) : Lane :=
  r x ^^^ (~~~(r (x + 1)) &&& (r (x + 2) ^^^ (~~~(r (x + 3)) &&& r (x + 4))))

/-- One bit position of five consecutive lanes, the indices modulo 5: chi gives the five outer terms, and the inverse recovers bit 0. -/
theorem unchi_chi_bit : ∀ b0 b1 b2 b3 b4 : Bool,
    ((b0 ^^ (!b1 && b2)) ^^ (!(b1 ^^ (!b2 && b3)) && ((b2 ^^ (!b3 && b4)) ^^ (!(b3 ^^ (!b4 && b0)) && (b4 ^^ (!b0 && b1)))))) = b0 := by
  decide

theorem unchiRow_chi (a : Lanes) (x y : Coord) : unchiRow (fun u => laneAt (chi a) u y) x = laneAt a x y := by
  apply BitVec.eq_of_getLsbD_eq
  intro j hj
  simp only [unchiRow, laneAt_chi, add_assoc, Fin.reduceAdd, add_zero, BitVec.getLsbD_xor, BitVec.getLsbD_and,
    BitVec.getLsbD_not, hj, decide_true, Bool.true_and]
  exact unchi_chi_bit _ _ _ _ _

/-- Settles O20: chi's row determines the row it came from, by the inverse. -/
theorem chiIsInjectiveOnEveryRow : Obligations.ChiIsInjectiveOnEveryRow := by
  intro a b y h x
  calc laneAt a x y = unchiRow (fun u => laneAt (chi a) u y) x := (unchiRow_chi a x y).symm
    _ = unchiRow (fun u => laneAt (chi b) u y) x := by rw [funext h]
    _ = laneAt b x y := unchiRow_chi b x y

/-! ## Pi as a permutation of the lanes (R123, R124) -/

/-- The linear index of the old lane that pi puts at linear index `l` (R123). -/
def piSource (l : Fin 25) : Fin 25 := laneIndex (laneX l + 3 * laneY l) (laneX l)

/-- Reading a lane of pi's output is reading the source lane of its input. -/
theorem readLane_pi (p : Lanes) (l : Fin 25) : readLane (pi p) l.val = readLane p (piSource l).val := by
  have hl : 5 * (laneY l).val + (laneX l).val = l.val := congrArg Fin.val (laneIndex_laneX_laneY l)
  calc readLane (pi p) l.val = some (laneAt (pi p) (laneX l) (laneY l)) := by rw [← readLane_eq_laneAt, hl]
    _ = some (laneAt p (laneX l + 3 * laneY l) (laneX l)) := by rw [laneAt_pi]
    _ = readLane p (piSource l).val := (readLane_eq_laneAt p _ _).symm

/-- The column of R124's table: the source of each new lane in turn. -/
theorem piSource_table : (List.finRange 25).map (fun l => (piSource l).val) =
    [0, 6, 12, 18, 24, 3, 9, 10, 16, 22, 1, 7, 13, 19, 20, 4, 5, 11, 17, 23, 2, 8, 14, 15, 21] := by
  decide

/-- The two maps of R123 are inverse: the coordinate pi reads at the forward map's position is the old one. -/
theorem pi_source_of_forward : ∀ x y : Coord, y + 3 * (2 * x + 3 * y) = x := by
  decide

/-- Settles O17: the table by the source of each linear index, the forward map by arithmetic modulo 5. -/
theorem piMovesLanesAsTheTable : Obligations.PiMovesLanesAsTheTable := by
  refine fun p => ⟨?_, laneAt_pi p, fun x y => ?_⟩
  · rw [← piSource_table, ← List.map_coe_finRange_eq_range, List.map_map, List.map_map]
    exact List.map_congr_left fun l _ => (readLane_pi p l).symm
  · rw [laneAt_pi, pi_source_of_forward]

/-! ## The round of the zero array (R128) -/

@[simp] theorem columnParity_zeroLanes (x : Coord) : columnParity zeroLanes x = 0#64 := by
  simp [columnParity]

@[simp] theorem theta_zeroLanes : theta zeroLanes = zeroLanes := lanes_ext fun x y => by simp

@[simp] theorem rho_zeroLanes : rho zeroLanes = zeroLanes := lanes_ext fun x y => by simp

@[simp] theorem pi_zeroLanes : pi zeroLanes = zeroLanes := lanes_ext fun x y => by simp

@[simp] theorem chi_zeroLanes : chi zeroLanes = zeroLanes := lanes_ext fun x y => by simp

/-- On the zero array a round is iota alone: the other steps map it to itself (R128). -/
theorem round_zeroLanes (i : Fin 24) : round zeroLanes i = iota zeroLanes i := by
  rw [round, theta_zeroLanes, rho_zeroLanes, pi_zeroLanes, chi_zeroLanes]

/-- Settles O18: what is left of the round is iota, whose constant is the ROM's entry. -/
theorem roundOfZeroIsTheRoundConstant : Obligations.RoundOfZeroIsTheRoundConstant := by
  intro i x y
  rw [round_zeroLanes, laneAt_iota, laneAt_zeroLanes, BitVec.zero_xor]
  rfl

end Sys2Proof.Machine
end

section
/-! PROOFS. The statements about the permutation (43_permutation.md): the engine step, the 24 steps of a permutation, the PERMUTE command, and
the permutation of the zero array, with the lemmas they rest on. -/

namespace Sys2Proof.Machine

/-! ## The engine step (R152) -/

/-- An engine step written out, at any ROUND that names a round (R152). -/
theorem step_round {s : State} (hx : s.rst = false) (hb : s.busy = true) (hr : s.round.toNat < 24) :
    step s = .next { s with
      lanes := round s.lanes ⟨s.round.toNat, hr⟩
      round := if s.round.toNat = 23 then 0#5 else s.round + 1#5
      busy := decide (s.round.toNat ≠ 23)
      host := afterEngine s.host } := by
  rw [step_busy hx hb]
  by_cases h : s.round.toNat = 23
  · rw [engineStep_last (by rwa [setHost_round])]
    simp only [setHost, h, ne_eq, not_true_eq_false, decide_false, if_true]
  · rw [engineStep_more (by rw [setHost_round]; omega)]
    simp only [setHost, h, hb, ne_eq, not_false_eq_true, decide_true, if_false]

/-- While BUSY = 0 there is no engine step (R152). -/
theorem eventOf_ne_engine {s : State} (hb : s.busy = false) (rest : List HostMove) : eventOf s ≠ .engine rest := by
  cases hh : s.host with
  | nil => simp [eventOf, hh, hb]
  | cons m moves => cases m <;> simp [eventOf, hh, hb]

/-- Settles O23: the step is the engine's, whose round is the five steps in turn. -/
theorem engineStepAppliesOneRound : Obligations.EngineStepAppliesOneRound :=
  fun _ => ⟨fun hx hb hr => step_round hx hb hr, fun hb => eventOf_ne_engine hb⟩

/-! ## The host's moves while the engine runs (R261) -/

/-- An engine step takes at most one move off the front. -/
theorem mem_of_mem_take_afterEngine {l : List HostMove} {n : Nat} {m : HostMove} (h : m ∈ (afterEngine l).take n) :
    m ∈ l.take (n + 1) := by
  unfold afterEngine at h
  split at h
  · exact List.mem_cons_of_mem _ h
  · exact (List.take_subset_take_left l n.le_succ) h

/-- Only waits pass in an engine step. -/
theorem filter_afterEngine (l : List HostMove) : (afterEngine l).filter (· ≠ .wait) = l.filter (· ≠ .wait) := by
  unfold afterEngine
  split <;> simp

/-- `k` engine steps take at most `k` moves off the front. -/
theorem mem_of_mem_take_iterate_afterEngine {l : List HostMove} {n k : Nat} {m : HostMove}
    (h : m ∈ (afterEngine^[k] l).take n) : m ∈ l.take (n + k) := by
  induction k generalizing n with
  | zero => exact h
  | succ k ih =>
    rw [Function.iterate_succ_apply'] at h
    rw [show n + (k + 1) = n + 1 + k by omega]
    exact ih (mem_of_mem_take_afterEngine h)

/-- Only waits pass while the engine runs. -/
theorem filter_iterate_afterEngine (k : Nat) (l : List HostMove) :
    (afterEngine^[k] l).filter (· ≠ .wait) = l.filter (· ≠ .wait) := by
  induction k with
  | zero => rfl
  | succ k ih => rw [Function.iterate_succ_apply', filter_afterEngine, ih]

/-! ## The run of a permutation (R151, R153) -/

/-- One more step at the end of a run. -/
theorem runs_then_step {k : Nat} {s t u : State} (h : Runs k s t) (hs : step t = .next u) : Runs (k + 1) s u :=
  runs_add h ((runs_succ_iff 0 t u).2 ⟨u, hs, (runs_zero_iff u u).2 rfl⟩)

/-- The state `k` engine steps after a permutation started, before it ends: `k` rounds are done and ROUND counts them (R153). -/
def afterRounds (k : Nat) (s : State) : State :=
  { s with lanes := rounds k s.lanes, round := BitVec.ofNat 5 k, host := afterEngine^[k] s.host }

/-- No reset comes in the step after `k` engine steps where none is among the first `n` moves of the host and `k < n`. -/
theorem rst_afterRounds {s : State} {k n : Nat} (hk : k < n) (hh : ∀ m ∈ s.host.take n, m ≠ .reset) :
    (afterRounds k s).rst = false := by
  rw [Bool.eq_false_iff, Ne, rst_iff]
  rintro ⟨rest, hr⟩
  have hm : HostMove.reset ∈ s.host.take (1 + k) :=
    mem_of_mem_take_iterate_afterEngine (by rw [show afterEngine^[k] s.host = .reset :: rest from hr]; simp)
  exact hh _ (List.take_subset_take_left _ (by omega) hm) rfl

/-- Before the last round, the engine steps go through the states of `afterRounds`. -/
theorem step_afterRounds {s : State} {k : Nat} (hk : k < 23) (hb : s.busy = true) (hh : ∀ m ∈ s.host.take 24, m ≠ .reset) :
    step (afterRounds k s) = .next (afterRounds (k + 1) s) := by
  rw [step_round_more hk (rst_afterRounds (by omega) hh) hb rfl]
  simp only [afterRounds, rounds_succ _ (show k < 24 by omega), Function.iterate_succ_apply']

/-- The engine step of round 23 ends the permutation with KeccakF of the lanes it started on (R153). -/
theorem step_afterRounds_last {s : State} (hb : s.busy = true) (hh : ∀ m ∈ s.host.take 24, m ≠ .reset) :
    step (afterRounds 23 s) = .next
      { s with lanes := keccakF s.lanes, busy := false, round := 0#5, host := afterEngine^[24] s.host } := by
  rw [step_round_last (rst_afterRounds (by omega) hh) hb rfl]
  simp only [afterRounds, keccakF, rounds_succ _ (show 23 < 24 by omega), Function.iterate_succ_apply']

/-- Up to the last round, `k` steps of a permutation do `k` rounds (R153). -/
theorem runs_afterRounds {s : State} {k : Nat} (hk : k ≤ 23) (hb : s.busy = true) (hr : s.round = 0#5)
    (hh : ∀ m ∈ s.host.take 24, m ≠ .reset) : Runs k s (afterRounds k s) := by
  induction k with
  | zero => exact (runs_zero_iff _ _).2 (by simp only [afterRounds, rounds_zero, ← hr, Function.iterate_zero, id])
  | succ k ih => exact runs_then_step (ih (by omega)) (step_afterRounds (by omega) hb hh)

/-- Settles O24: 23 steps by induction, then the one that ends the permutation; only waits of the host pass meanwhile. -/
theorem permutationCompletesIn24Steps : Obligations.PermutationCompletesIn24Steps := by
  intro s hb hr hh
  refine ⟨⟨afterEngine^[24] s.host, ?_, filter_iterate_afterEngine 24 s.host⟩, fun k hk => ?_⟩
  · exact runs_then_step (runs_afterRounds le_rfl hb hr hh) (step_afterRounds_last hb hh)
  · exact ⟨afterRounds k s, runs_afterRounds (by omega) hb hr hh, hb, rfl, rfl⟩

/-! ## The permutation of the zero array (R155) -/

/- The kernel evaluates lazily, and a round reads each lane of its input many times over: a chain of rounds is evaluated only if the lanes
between them are. `forceVector` makes the kernel evaluate a vector of lanes to numerals before it goes on. -/

/-- `k v`, for whose evaluation `v` is evaluated first: the match asks for the numeral. -/
def forceLane {β : Type} (v : Lane) (k : Lane → β) : β :=
  match v.toNat with
  | 0 => k 0#64
  | n + 1 => k (BitVec.ofNat 64 (n + 1))

theorem forceLane_eq {β : Type} (v : Lane) (k : Lane → β) : forceLane v k = k v := by
  unfold forceLane
  split
  · next h => rw [← h, BitVec.ofNat_toNat, BitVec.setWidth_eq]
  · next n h => rw [← Nat.succ_eq_add_one, ← h, BitVec.ofNat_toNat, BitVec.setWidth_eq]

/-- `k l` with every lane of `l` evaluated first. -/
def forceList {β : Type} (k : List Lane → β) : List Lane → β
  | [] => k []
  | v :: vs => forceLane v fun v' => forceList (fun vs' => k (v' :: vs')) vs

theorem forceList_eq {β : Type} (k : List Lane → β) (l : List Lane) : forceList k l = k l := by
  induction l generalizing k with
  | nil => rfl
  | cons v vs ih => rw [forceList, forceLane_eq, ih]

/-- `k a` with every lane of `a` evaluated first. -/
def forceVector {β : Type} {n : Nat} (a : Vector Lane n) (k : Vector Lane n → β) : β :=
  forceList (fun l => if h : l.length = n then k ⟨⟨l⟩, h⟩ else k a) a.toList

theorem forceVector_eq {β : Type} {n : Nat} (a : Vector Lane n) (k : Vector Lane n → β) : forceVector a k = k a :=
  (forceList_eq _ a.toList).trans (dif_pos Vector.length_toList)

/-- Theta from the five column parities (R121). -/
def thetaFrom (a : Lanes) (parities : Vector Lane 5) : Lanes :=
  lanesOf fun x y => laneAt a x y ^^^ (parities[x + 4] ^^^ rotl64 parities[x + 1] 1)

theorem thetaFrom_columnParity (a : Lanes) : thetaFrom a (Vector.ofFn (columnParity a)) = theta a := by
  simp [thetaFrom, theta]

/-- The rounds of the list in turn, the column parities and the lanes of each evaluated before they are read. -/
def strictRounds : List (Fin 24) → Lanes → Lanes
  | [], a => a
  | i :: is, a =>
    forceVector (Vector.ofFn (columnParity a)) fun parities =>
      forceVector (iota (chi (pi (rho (thetaFrom a parities)))) i) (strictRounds is)

theorem strictRounds_eq (is : List (Fin 24)) (a : Lanes) : strictRounds is a = is.foldl round a := by
  induction is generalizing a with
  | nil => rfl
  | cons i is ih => rw [strictRounds, forceVector_eq, forceVector_eq, thetaFrom_columnParity, ih, List.foldl_cons, round]

theorem keccakF_eq_strictRounds (a : Lanes) : keccakF a = strictRounds (List.finRange 24) a := by
  rw [strictRounds_eq, keccakF, rounds, List.take_of_length_le (by simp)]

/-- Settles O22: the 24 rounds by evaluation, one after the other. -/
theorem keccakOfTheZeroStateIsTheKnownAnswer : Obligations.KeccakOfTheZeroStateIsTheKnownAnswer := by
  unfold Obligations.KeccakOfTheZeroStateIsTheKnownAnswer
  rw [keccakF_eq_strictRounds]
  decide +kernel

/-! ## PERMUTE (R150) -/

/-- Settles O32: in the IDLE phase the checks let the rule run, each exception is its check's, and the words are its row's. -/
theorem permuteOnlyStartsTheEngine : Obligations.PermuteOnlyStartsTheEngine := by
  refine ⟨fun s hp => ?_, fun s hp => ?_, fun s hp => ?_, fun d => ?_, fun w hopc harg => ?_⟩
  · exact checked_runs (by simp [hp]) (by simp [hp, legalIn]) rfl rfl
  · rcases hp with hp | hp <;> exact exec_wrongPhase (by simp [hp]) (by simp [hp, legalIn, Instr.op])
  · exact exec_of_error (by simp [Instr.op]) hp
  · exact decode_of_selects (o := .permute) (by decide) d
  · exact raisesIllegal_of_reservedWord (.inr (.inl ⟨by simp [hopc], harg⟩))

end Sys2Proof.Machine
end

section
/-! PROOFS. The statements about the sponge (44_sponge.md): ABSORB, FINAL and SQUEEZE, the padded message, and the run of INIT, ABSORBs and
FINAL as SHA3-256, with the lemmas they rest on. -/

namespace Sys2Proof.Machine

/-! ## ABSORB (R172, R173, R174) -/

/-- A word of ABSORB's row decodes to ABSORB of its low four bits (R74). -/
theorem decode_absorb {w : CmdWord} (h : w.toNat / 16 = 0x300) (d : DataWord) : decode w d = .ok (.absorb (w.toNat % 16) d) := by
  rw [decode_of_selects ((selects_iff .absorb w).2 h), Op.instr, fieldN_eq]

/-- POS + N as an 8-bit number (R172). -/
theorem pos_add_ofNat (p : BitVec 8) (n : Nat) : p + BitVec.ofNat 8 n = BitVec.ofNat 8 (p.toNat + n) := by
  rw [BitVec.ofNat_add, BitVec.ofNat_toNat, BitVec.setWidth_eq]

/-- Settles O28: the bytes by the law of the XOR, POS by whether the block is full, each exception by its check. -/
theorem absorbXorsMessageBytesAtPos : Obligations.AbsorbXorsMessageBytesAtPos := by
  refine ⟨fun s n d hp h1 h8 hfit => ?_, fun s n d hp => ?_, fun s n d hp hn => ?_, fun s n d hp h1 h8 hover => ?_,
    fun s n d hp => ?_, fun w d hw => decode_absorb hw d, fun w hopc harg => ?_⟩
  · obtain ⟨a, ha, hbytes⟩ := xorBytes_spec s.lanes s.pos.toNat d n (by omega)
    have hrun := exec_absorb_runs d hp h1 h8 hfit
    refine ⟨a, hbytes, fun hpart => ?_, fun hfull => ?_⟩
    · rw [hrun, absorbRule_partial ha hpart, pos_add_ofNat]; rfl
    · rw [hrun, absorbRule_full ha hfull]; rfl
  · rcases hp with hp | hp <;> exact exec_wrongPhase (by simp [hp]) (by simp [hp, legalIn, Instr.op])
  · exact checked_badArg (by simp [hp]) (by simp [hp, legalIn]) ((countLegal_eq_false_iff n).2 hn)
  · exact checked_overrun (by simp [hp]) (by simp [hp, legalIn]) ((countLegal_iff n).2 ⟨h1, h8⟩)
      ((chunkFits_eq_false_iff s.pos n).2 hover)
  · exact exec_of_error (by simp [Instr.op]) hp
  · exact raisesIllegal_of_reservedWord (.inr (.inr (.inl ⟨hopc, harg⟩)))

/-! ## FINAL (R176) -/

/-- FINAL in the ABSORB phase runs its own rule (R176). -/
theorem exec_final_runs {s : State} (hp : s.phase = .absorb) : exec .final s = finalRule s :=
  checked_runs (by simp [hp]) (by simp [hp, legalIn]) rfl rfl

/-- Settles O30: the bytes by the law of the padding, each exception by its check, the words by their row. -/
theorem finalPadsTheBlockAndStartsThePermutation : Obligations.FinalPadsTheBlockAndStartsThePermutation := by
  refine ⟨fun s hp hpos => ?_, fun s hp => ?_, fun s hp => ?_, fun d => ?_, fun w hopc harg => ?_⟩
  · obtain ⟨a, ha, hbytes⟩ := xorPadding_spec s.lanes (show s.pos.toNat < 200 by omega)
    refine ⟨a, (exec_final_runs hp).trans (finalRule_next ha), fun hne => ⟨?_, ?_⟩, fun he => ?_, fun i hi h135 => ?_⟩
    · rw [hbytes, if_pos rfl, if_neg hne]
    · rw [hbytes, if_neg (Ne.symm hne), if_pos rfl]
    · rw [hbytes, if_pos he.symm, if_pos he]
    · rw [hbytes, if_neg hi, if_neg h135]
  · rcases hp with hp | hp <;> exact exec_wrongPhase (by simp [hp]) (by simp [hp, legalIn, Instr.op])
  · exact exec_of_error (by simp [Instr.op]) hp
  · exact decode_of_selects (o := .final) (by decide) d
  · exact raisesIllegal_of_reservedWord (.inr (.inl ⟨by simp [hopc], harg⟩))

/-! ## SQUEEZE (R180) -/

/-- A word of SQUEEZE's row decodes to SQUEEZE of its low two bits (R74). -/
theorem decode_squeeze {w : CmdWord} (h : w.toNat / 4 = 0x1400) (d : DataWord) : decode w d = .ok (.squeeze (w.toNat % 4)) := by
  rw [decode_of_selects ((selects_iff .squeeze w).2 h), Op.instr, fieldK_eq]

/-- The first `n` bytes of a lane, read from the byte view, are the lane's low `8n` bits (R12, R21). -/
theorem memRead_lane {a : Lanes} {l : Nat} {v : Lane} (h : readLane a l = some v) {n : Nat} (hn : n ≤ 8) :
    memRead a (8 * l) n = some (v.toNat % 2 ^ (8 * n)) := by
  induction n with
  | zero => simp [memRead, Nat.mod_one]
  | succ n ih =>
    rw [memRead, ih (by omega), readByte_of_readLane h (by omega)]
    simp only [laneByte, BitVec.extractLsb'_toNat, Nat.shiftRight_eq_div_pow]
    rw [Nat.mul_succ, Nat.pow_add, Nat.mod_mul, Nat.mul_comm (2 ^ (8 * n))]

/-- Settles O31: the lane by its coordinates and by its eight bytes, each exception by its check, the words by their row. -/
theorem squeezeReadsADigestWord : Obligations.SqueezeReadsADigestWord := by
  refine ⟨fun s k hp => ?_, fun s k hp => ?_, fun s k hp => ?_, fun w d hw => decode_squeeze hw d, fun w hopc harg => ?_⟩
  · have hlane : readLane s.lanes k.val = some s.lanes[k.val] := dif_pos (by omega)
    refine ⟨s.lanes[k.val], exec_squeeze hp (by omega), by simp [laneAt, laneIndex], ?_⟩
    rw [memRead_lane hlane le_rfl, Nat.mod_eq_of_lt s.lanes[k.val].isLt]
  · rcases hp with hp | hp <;> exact exec_wrongPhase (by simp [hp]) (by simp [hp, legalIn, Instr.op])
  · exact exec_of_error (by simp [Instr.op]) hp
  · exact raisesIllegal_of_reservedWord (.inr (.inr (.inr (.inl ⟨hopc, harg⟩))))

/-! ## The padded message (R171) -/

/-- The bytes the padding adds where `k` message bytes are in the last block (R171). -/
def padTail (k : Nat) : List Byte :=
  if k = 135 then [0x86#8] else 0x06#8 :: List.replicate (134 - k) 0x00#8 ++ [0x80#8]

theorem padMessage_eq_append (m : List Byte) : padMessage m = m ++ padTail (m.length % 136) := padMessage_eq m

theorem padTail_length {k : Nat} (h : k ≤ 135) : k + (padTail k).length = 136 := by
  unfold padTail
  split <;> simp <;> omega

/-- The padding's byte `j`: 0x06 first and 0x80 at byte 135 of the block, a net 0x86 where they are one byte, and 0 elsewhere (R171). -/
theorem padTail_getD {k : Nat} (h : k ≤ 135) (j : Nat) :
    (padTail k).getD j 0#8 = if j = 0 then (if k = 135 then 0x86#8 else 0x06#8) else if k + j = 135 then 0x80#8 else 0#8 := by
  unfold padTail
  by_cases hk : k = 135
  · cases j <;> simp [hk]
  · cases j with
    | zero => simp [hk]
    | succ j =>
      rcases lt_trichotomy j (134 - k) with hj | rfl | hj
      · simp [hk, hj, show k + (j + 1) ≠ 135 by omega, List.getElem?_append]
      · simp [hk, show k + (134 - k + 1) = 135 by omega]
      · simp [hk, hj.not_gt, show k + (j + 1) ≠ 135 by omega, List.getElem?_append,
          List.getElem?_eq_none (l := [0x80#8]) (show 1 ≤ j - (134 - k) by omega)]

/-- Settles O52: the padding by cases of the number of bytes in the last block. -/
theorem paddingFillsWholeBlocks : Obligations.PaddingFillsWholeBlocks := by
  intro m
  refine ⟨padMessage_length m, ?_, fun h => ?_, fun h => ?_⟩
  · rw [padMessage_eq_append, List.take_left]
  · rw [padMessage_eq_append, h]; rfl
  · rw [padMessage_eq_append, h]
    simp [padTail]

/-! ## The lanes while a message is absorbed (R170) -/

/-- The bytes of the message after its last full block. -/
def lastBlock (m : List Byte) : List Byte := m.drop (136 * (m.length / 136))

/-- The state array with the bytes `c` XORed into the block behind the message `m`, before any permutation that follows (R170, R172). -/
def lanesWith (m c : List Byte) : Lanes := xorBlock (absorbBlocks m (m.length / 136)) (lastBlock m ++ c)

/-- The state array after the message is absorbed: its full blocks permuted in, then the bytes after them XORed in (R170, R172). -/
def absorbedLanes (m : List Byte) : Lanes := lanesWith m []

@[simp] theorem lastBlock_length (m : List Byte) : (lastBlock m).length = m.length % 136 := by
  rw [lastBlock, List.length_drop]; omega

/-- More bytes XORed into a block change exactly the bytes after those that are in it (R170). -/
theorem readByte_xorBlock_append (a : Lanes) (b c : List Byte) (i : Nat) :
    readByte (xorBlock a (b ++ c)) i =
      if b.length ≤ i ∧ i < 136 then (readByte (xorBlock a b) i).map (· ^^^ c.getD (i - b.length) 0#8)
      else readByte (xorBlock a b) i := by
  simp only [readByte_xorBlock]
  by_cases hi : i < 136
  · by_cases hb : b.length ≤ i
    · simp [hi, hb, List.getElem?_append_right]
    · simp [hi, hb, List.getElem?_append_left (show i < b.length by omega)]
  · simp [hi]

@[simp] theorem xorBlock_nil (a : Lanes) : xorBlock a [] = a :=
  lanes_ext_bytes fun i _ => by simp [readByte_xorBlock]

/-- ABSORB's XOR puts a chunk into the block behind the bytes that are in it (R172). -/
theorem xorBytes_xorBlock (a : Lanes) {b c : List Byte} (h8 : c.length ≤ 8) (hfit : b.length + c.length ≤ 136) :
    xorBytes (xorBlock a b) b.length (packBytes c) c.length = some (xorBlock a (b ++ c)) := by
  obtain ⟨a', ha, hr⟩ := xorBytes_spec (xorBlock a b) b.length (packBytes c) c.length (by omega)
  refine ha.trans (congrArg some (lanes_ext_bytes fun i _ => ?_))
  rw [hr, readByte_xorBlock_append]
  by_cases hi : b.length ≤ i ∧ i < b.length + c.length
  · have hlt : i - b.length < c.length := by omega
    rw [if_pos hi, if_pos (by omega), dataByte, byte_packBytes c hlt (by omega)]
    simp [hlt]
  · rw [if_neg hi]
    split
    · simp [List.getElem?_eq_none (show c.length ≤ i - b.length by omega)]
    · rfl

/-- FINAL's XOR puts the padding into the block behind the bytes that are in it (R171, R176). -/
theorem xorPadding_xorBlock (a : Lanes) {b : List Byte} (hb : b.length ≤ 135) :
    xorPadding (xorBlock a b) b.length = some (xorBlock a (b ++ padTail b.length)) := by
  obtain ⟨a', ha, hr⟩ := xorPadding_spec (xorBlock a b) (show b.length < 200 by omega)
  refine ha.trans (congrArg some (lanes_ext_bytes fun i _ => ?_))
  rw [hr, readByte_xorBlock_append, padTail_getD hb]
  by_cases hp : i = b.length
  · simp [hp, show b.length < 136 by omega]
  · by_cases h135 : i = 135
    · simp [h135, hb, show ¬ 135 = b.length by omega, show ¬ 135 - b.length = 0 by omega,
        show b.length + (135 - b.length) = 135 by omega]
    · rw [if_neg hp, if_neg h135]
      split
      · rw [if_neg (by omega), if_neg (by omega)]; simp
      · rfl

/-- ABSORB's XOR puts a chunk behind the message (R172). -/
theorem xorBytes_absorbedLanes {m c : List Byte} (h8 : c.length ≤ 8) (hfit : m.length % 136 + c.length ≤ 136) :
    xorBytes (absorbedLanes m) (m.length % 136) (packBytes c) c.length = some (lanesWith m c) := by
  rw [← lastBlock_length] at hfit ⊢
  rw [absorbedLanes, lanesWith, List.append_nil, xorBytes_xorBlock _ h8 hfit, lanesWith]

/-- FINAL's XOR puts the padding behind the message (R176). -/
theorem xorPadding_absorbedLanes (m : List Byte) :
    xorPadding (absorbedLanes m) (m.length % 136) = some (lanesWith m (padTail (m.length % 136))) := by
  have hle : (lastBlock m).length ≤ 135 := by rw [lastBlock_length]; omega
  rw [← lastBlock_length, absorbedLanes, lanesWith, List.append_nil, xorPadding_xorBlock _ hle, lanesWith]

/-- The full blocks of a message are those of any message that begins with it (R170). -/
theorem absorbBlocks_append (m c : List Byte) : absorbBlocks (m ++ c) (m.length / 136) = absorbBlocks m (m.length / 136) :=
  absorbBlocks_congr (List.take_append_of_le_length (by omega))

/-- Bytes that fill the last block complete one more block (R170). -/
theorem absorbBlocks_append_full {m c : List Byte} (h : m.length % 136 + c.length = 136) :
    absorbBlocks (m ++ c) (m.length / 136 + 1) = keccakF (lanesWith m c) := by
  rw [absorbBlocks, absorbBlocks_append, show Config.rate = 136 from rfl, List.drop_append_of_le_length (by omega),
    List.take_of_length_le (by simp; omega), lanesWith, lastBlock]

/-- A chunk that does not fill the last block lands in it (R172). -/
theorem absorbedLanes_append_partial {m c : List Byte} (h : m.length % 136 + c.length < 136) :
    absorbedLanes (m ++ c) = lanesWith m c := by
  have hq : (m ++ c).length / 136 = m.length / 136 := by rw [List.length_append]; omega
  rw [absorbedLanes, lanesWith, lastBlock, hq, absorbBlocks_append, List.append_nil, List.drop_append_of_le_length (by omega),
    lanesWith, lastBlock]

/-- A chunk that fills the last block is followed by the permutation (R173). -/
theorem absorbedLanes_append_full {m c : List Byte} (h : m.length % 136 + c.length = 136) :
    absorbedLanes (m ++ c) = keccakF (lanesWith m c) := by
  have hq : (m ++ c).length / 136 = m.length / 136 + 1 := by rw [List.length_append]; omega
  have hnil : lastBlock (m ++ c) = [] := List.length_eq_zero_iff.1 (by rw [lastBlock_length, List.length_append]; omega)
  rw [absorbedLanes, lanesWith, hnil, List.nil_append, xorBlock_nil, hq, absorbBlocks_append_full h]

/-- The source's state is the message with its padding, permuted (R170). -/
theorem sha3State_eq (m : List Byte) : sha3State m = keccakF (lanesWith m (padTail (m.length % 136))) := by
  rw [sha3State, padMessage_length, show Config.rate = 136 from rfl, Nat.mul_div_cancel_left _ (by omega), padMessage_eq_append,
    absorbBlocks_append_full (padTail_length (by omega))]

/-- Each of the first lanes of the source's state is a little-endian word of the digest (R181). -/
theorem digestWord (m : List Byte) {k : Nat} (hk : k < 4) : packBytes (((sha3 m).drop (8 * k)).take 8) = (sha3State m)[k] := by
  have hround : (deserialize (serialize (sha3State m)))[k] = (sha3State m)[k] := by rw [serializationRoundTrips.1]
  rw [← hround, deserialize, Vector.getElem_ofFn, sha3, show Config.digestBytes = 32 from rfl, List.drop_take, List.take_take,
    Nat.min_eq_left (by omega)]

theorem sha3_length (m : List Byte) : (sha3 m).length = 32 := by
  rw [sha3, List.length_take, serialize_length]; rfl

/-! ## Runs without an error (R175) -/

/-- A run at none of whose states, the first and the last included, the phase is ERROR. -/
def RunsErrorFree (k : Nat) (s t : State) : Prop :=
  Runs k s t ∧ ∀ j u, j ≤ k → Runs j s u → u.phase ≠ .error

theorem runs_unique {k : Nat} {s t u : State} (ht : Runs k s t) (hu : Runs k s u) : t = u :=
  Host.Outcome.next.inj (Eq.trans (Eq.symm ht) hu)

theorem runsErrorFree_zero {s : State} (h : s.phase ≠ .error) : RunsErrorFree 0 s s := by
  refine ⟨(runs_zero_iff s s).2 rfl, fun j u hj hu => ?_⟩
  obtain rfl : j = 0 := by omega
  rwa [← (runs_zero_iff s u).1 hu]

/-- A step out of a state that is not in the ERROR phase, ahead of a run without an error. -/
theorem RunsErrorFree.cons {k : Nat} {s t u : State} (hp : s.phase ≠ .error) (hs : step s = .next t) (h : RunsErrorFree k t u) :
    RunsErrorFree (k + 1) s u := by
  refine ⟨(runs_succ_iff k s u).2 ⟨t, hs, h.1⟩, fun j v hj hv => ?_⟩
  cases j with
  | zero => rwa [← (runs_zero_iff s v).1 hv]
  | succ j =>
    obtain ⟨w, hw, hv⟩ := (runs_succ_iff j s v).1 hv
    obtain rfl : t = w := Host.Outcome.next.inj (hs.symm.trans hw)
    exact h.2 j v (by omega) hv

/-- Runs without an error compose. -/
theorem RunsErrorFree.trans {j k : Nat} {s t u : State} (hst : RunsErrorFree j s t) (htu : RunsErrorFree k t u) :
    RunsErrorFree (j + k) s u := by
  induction j generalizing s with
  | zero =>
    obtain rfl := (runs_zero_iff s t).1 hst.1
    rwa [Nat.zero_add]
  | succ j ih =>
    obtain ⟨v, hs, hvt⟩ := (runs_succ_iff j s t).1 hst.1
    rw [Nat.succ_add]
    refine .cons (hst.2 0 s (by omega) ((runs_zero_iff s s).2 rfl)) hs (ih ⟨hvt, fun i w hi hw => ?_⟩)
    exact hst.2 (i + 1) w (by omega) ((runs_succ_iff i s w).2 ⟨v, hs, hw⟩)

theorem afterEngine_presentAll (is : List Instr) : afterEngine (presentAll is) = presentAll is := by
  cases is <;> rfl

/-- While a permutation runs, the host holds its next command, and the phase stays as it is (R153, R261). -/
theorem permutation_runsErrorFree {s : State} {is : List Instr} (hb : s.busy = true) (hr : s.round = 0#5) (hp : s.phase ≠ .error)
    (hh : s.host = presentAll is) :
    RunsErrorFree 24 s { s with lanes := keccakF s.lanes, busy := false, round := 0#5 } := by
  have hnoreset : ∀ m ∈ s.host.take 24, m ≠ .reset := by
    intro m hm
    rw [hh] at hm
    obtain ⟨i, -, rfl⟩ := List.mem_map.1 (List.mem_of_mem_take hm)
    exact HostMove.noConfusion
  have hheld : afterEngine^[24] s.host = s.host := Function.iterate_fixed (by rw [hh, afterEngine_presentAll]) 24
  have hend : Runs 24 s { s with lanes := keccakF s.lanes, busy := false, round := 0#5 } := by
    have h := runs_then_step (runs_afterRounds le_rfl hb hr hnoreset) (step_afterRounds_last hb hnoreset)
    rwa [hheld] at h
  refine ⟨hend, fun j u hj hu => ?_⟩
  by_cases h24 : j = 24
  · subst h24
    rw [runs_unique hu hend]
    exact hp
  · rw [runs_unique hu (runs_afterRounds (by omega) hb hr hnoreset)]
    exact hp

/-! ## INIT, the ABSORBs and FINAL (R175) -/

/-- The state in which the message `m` has been absorbed, no permutation is running and the host presents `is`. -/
def absorbing (m : List Byte) (pc : Nat) (is : List Instr) : State :=
  { lanes := absorbedLanes m, phase := .absorb, busy := false, round := 0#5, pos := BitVec.ofNat 8 (m.length % 136),
    errcode := .none, result := 0#64, pc := pc, host := presentAll is }

/-- The state in which a permutation starts on the lanes `a`, in the phase `p`, and the host presents `is`. -/
def permuting (a : Lanes) (p : Phase) (pc : Nat) (is : List Instr) : State :=
  { lanes := a, phase := p, busy := true, round := 0#5, pos := 0#8, errcode := .none, result := 0#64, pc := pc,
    host := presentAll is }

/-- The state in which the digest of `m` can be squeezed and the host presents `is`. -/
def squeezing (m : List Byte) (pc : Nat) (is : List Instr) : State :=
  { lanes := sha3State m, phase := .squeeze, busy := false, round := 0#5, pos := 0#8, errcode := .none, result := 0#64, pc := pc,
    host := presentAll is }

@[simp] theorem absorbing_phase (m : List Byte) (pc : Nat) (is : List Instr) : (absorbing m pc is).phase = .absorb := rfl
@[simp] theorem absorbing_lanes (m : List Byte) (pc : Nat) (is : List Instr) : (absorbing m pc is).lanes = absorbedLanes m := rfl

@[simp] theorem absorbing_pos_toNat (m : List Byte) (pc : Nat) (is : List Instr) : (absorbing m pc is).pos.toNat = m.length % 136 := by
  simp [absorbing]; omega

/-- A step at which the host presents a well-formed command with BUSY = 0 runs the command (R80). -/
theorem step_presentAll {s : State} {i : Instr} {is : List Instr} (hb : s.busy = false) (hh : s.host = presentAll (i :: is))
    (hi : i.wf = true) : step s = exec i (takeCommand (presentAll is) s) :=
  step_of_decode ⟨hh, hb⟩ (decode_encode hi)

/-- INIT enters the ABSORB phase with no message byte absorbed (R202). -/
theorem step_init {s : State} {is : List Instr} (hb : s.busy = false) (hh : s.host = presentAll (.init :: is)) :
    step s = .next (absorbing [] (s.pc + 1) is) := by
  have hzero : absorbedLanes [] = zeroLanes := xorBlock_nil zeroLanes
  rw [step_presentAll hb hh rfl, absorbing, hzero]
  simp [exec, execInit, restart, takeCommand, hb]

/-- An ABSORB of a chunk that fits runs ABSORB's rule (R172). -/
theorem step_absorbChunk {m c : List Byte} (pc : Nat) (is : List Instr) (h1 : 1 ≤ c.length) (h8 : c.length ≤ 8)
    (hfit : m.length % 136 + c.length ≤ 136) :
    step (absorbing m pc (absorbChunk c :: is)) = absorbRule c.length (packBytes c) (absorbing m (pc + 1) is) := by
  have hwf : (absorbChunk c).wf = true := by simp [absorbChunk, Instr.wf]; omega
  rw [step_presentAll rfl rfl hwf]
  exact exec_absorb_runs _ rfl h1 h8 (by simpa using hfit)

/-- A chunk that does not fill the block is absorbed in one step (R172). -/
theorem step_absorbChunk_partial {m c : List Byte} (pc : Nat) (is : List Instr) (h1 : 1 ≤ c.length) (h8 : c.length ≤ 8)
    (hpart : m.length % 136 + c.length < 136) :
    step (absorbing m pc (absorbChunk c :: is)) = .next (absorbing (m ++ c) (pc + 1) is) := by
  have hpos : (m ++ c).length % 136 = m.length % 136 + c.length := by rw [List.length_append]; omega
  rw [step_absorbChunk pc is h1 h8 hpart.le,
    absorbRule_partial (by simpa using xorBytes_absorbedLanes h8 hpart.le) (by simpa using hpart.ne),
    pos_add_ofNat, absorbing_pos_toNat, ← hpos, ← absorbedLanes_append_partial hpart]
  rfl

/-- A chunk that fills the block starts the permutation (R173). -/
theorem step_absorbChunk_full {m c : List Byte} (pc : Nat) (is : List Instr) (h1 : 1 ≤ c.length) (h8 : c.length ≤ 8)
    (hfull : m.length % 136 + c.length = 136) :
    step (absorbing m pc (absorbChunk c :: is)) = .next (permuting (lanesWith m c) .absorb (pc + 1) is) := by
  rw [step_absorbChunk pc is h1 h8 hfull.le,
    absorbRule_full (by simpa using xorBytes_absorbedLanes h8 hfull.le) (by simpa using hfull)]
  rfl

/-- FINAL pads the block and starts the last permutation (R176). -/
theorem step_final (m : List Byte) (pc : Nat) (is : List Instr) :
    step (absorbing m pc (.final :: is)) = .next (permuting (lanesWith m (padTail (m.length % 136))) .squeeze (pc + 1) is) := by
  rw [step_presentAll rfl rfl rfl, exec_final_runs rfl, finalRule_next (by simpa using xorPadding_absorbedLanes m)]
  rfl

/-- One ABSORB, with the permutation after it if the chunk fills the block (R172, R173). -/
theorem absorbChunk_runsErrorFree {m c : List Byte} {pc n : Nat} {is : List Instr} (h1 : 1 ≤ c.length) (h8 : c.length ≤ 8)
    (hfit : m.length % 136 + c.length ≤ 136) (hn : n + 24 * (m.length / 136) = 1 + 24 * ((m ++ c).length / 136)) :
    RunsErrorFree n (absorbing m pc (absorbChunk c :: is)) (absorbing (m ++ c) (pc + 1) is) := by
  have hstart : (absorbing m pc (absorbChunk c :: is)).phase ≠ .error := by simp
  rw [List.length_append] at hn
  rcases hfit.lt_or_eq with hpart | hfull
  · obtain rfl : n = 0 + 1 := by omega
    exact .cons hstart (step_absorbChunk_partial pc is h1 h8 hpart) (runsErrorFree_zero (by simp))
  · obtain rfl : n = 24 + 1 := by omega
    have hpos : (m ++ c).length % 136 = 0 := by rw [List.length_append]; omega
    refine .cons hstart (step_absorbChunk_full pc is h1 h8 hfull) ?_
    rw [absorbing, absorbedLanes_append_full hfull, hpos]
    exact permutation_runsErrorFree (s := permuting ..) rfl rfl Phase.noConfusion rfl

/-- More message bytes fill no fewer blocks. -/
theorem blocks_le_append (m c : List Byte) : m.length / 136 ≤ (m ++ c).length / 136 :=
  Nat.div_le_div_right (by simp)

/-- The ABSORBs of chunks that fit absorb the chunks, one step each and 24 for each block they fill (R175). -/
theorem absorbChunks_runsErrorFree {cs : List (List Byte)} {m : List Byte} {pc n : Nat} {is : List Instr}
    (hfit : ChunksFit m.length cs) (hn : n + 24 * (m.length / 136) = cs.length + 24 * ((m ++ cs.flatten).length / 136)) :
    RunsErrorFree n (absorbing m pc (cs.map absorbChunk ++ is)) (absorbing (m ++ cs.flatten) (pc + cs.length) is) := by
  induction cs generalizing m pc n with
  | nil =>
    simp only [List.flatten_nil, List.append_nil, List.length_nil] at hn ⊢
    obtain rfl : n = 0 := by omega
    exact runsErrorFree_zero (by simp)
  | cons c cs ih =>
    obtain ⟨h1, h8, hblock, hrest⟩ := hfit
    rw [← List.length_append] at hrest
    rw [List.flatten_cons, ← List.append_assoc, List.length_cons] at hn ⊢
    have hblocks := blocks_le_append m c
    have hblocks' := blocks_le_append (m ++ c) cs.flatten
    obtain ⟨k, hk⟩ : ∃ k, k + 24 * (m.length / 136) = 1 + 24 * ((m ++ c).length / 136) :=
      ⟨1 + 24 * ((m ++ c).length / 136) - 24 * (m.length / 136), by omega⟩
    obtain ⟨l, rfl⟩ : ∃ l, n = k + l := ⟨n - k, by omega⟩
    rw [Nat.add_comm cs.length 1, ← Nat.add_assoc]
    exact (absorbChunk_runsErrorFree h1 h8 hblock hk).trans (ih hrest (by omega))

/-- FINAL and the last permutation end in the source's state (R176). -/
theorem final_runsErrorFree (m : List Byte) (pc : Nat) (is : List Instr) :
    RunsErrorFree (24 + 1) (absorbing m pc (.final :: is)) (squeezing m (pc + 1) is) := by
  refine .cons (by simp) (step_final m pc is) ?_
  rw [squeezing, sha3State_eq]
  exact permutation_runsErrorFree (s := permuting ..) rfl rfl Phase.noConfusion rfl

/-- Settles O54: the runs of the ABSORBs and of FINAL, one after the other behind the step of INIT; each digest word is a lane. -/
theorem spongeCommandsComputeSha3 : Obligations.SpongeCommandsComputeSha3 := by
  intro s chunks later hb hfit hh
  have hinit : step s = .next (absorbing [] (s.pc + 1) (chunks.map absorbChunk ++ .final :: later)) :=
    step_init hb (by simpa [hashCommands] using hh)
  have habsorb := absorbChunks_runsErrorFree (m := []) (pc := s.pc + 1) (is := .final :: later) hfit
    (n := chunks.length + 24 * (chunks.flatten.length / 136)) (by simp)
  have hrun := habsorb.trans (final_runsErrorFree chunks.flatten _ later)
  rw [show s.pc + 1 + chunks.length + 1 = s.pc + chunks.length + 2 by omega] at hrun
  have hsteps : chunks.length + 2 + 24 * (chunks.flatten.length / 136 + 1) =
      chunks.length + 24 * (chunks.flatten.length / 136) + (24 + 1) + 1 := by omega
  refine ⟨squeezing chunks.flatten (s.pc + chunks.length + 2) later, ?_, ⟨rfl, rfl, rfl⟩, rfl, fun j u hj1 hj hu => ?_,
    sha3_length _, fun k hk => ?_⟩
  · rw [hsteps]
    exact (runs_succ_iff _ _ _).2 ⟨_, hinit, hrun.1⟩
  · obtain ⟨j, rfl⟩ : ∃ i, j = i + 1 := ⟨j - 1, by omega⟩
    obtain ⟨v, hv, hu⟩ := (runs_succ_iff j s u).1 hu
    obtain rfl := Host.Outcome.next.inj (hinit.symm.trans hv)
    exact hrun.2 j u (by omega) hu
  · rw [exec_squeeze rfl (show k < 25 by omega), digestWord _ hk]
    rfl

end Sys2Proof.Machine
end

section
/-! PROOFS. The statements about the control commands NOP, INIT and CLEAR (45_control.md), and that nothing is carried over an INIT, with the
lemmas they rest on: the host's pc is read for nothing but its own count. -/

namespace Sys2Proof.Machine

/-! ## The host's pc has no influence on anything else (R24) -/

/-- The state with the host's pc at `n`. -/
def setPc (n : Nat) (s : State) : State := { s with pc := n }

@[simp] theorem setPc_lanes (n : Nat) (s : State) : (setPc n s).lanes = s.lanes := rfl
@[simp] theorem setPc_phase (n : Nat) (s : State) : (setPc n s).phase = s.phase := rfl
@[simp] theorem setPc_pos (n : Nat) (s : State) : (setPc n s).pos = s.pos := rfl

/-- The answer with the host's pc of its next state at `n`; a stop stays the stop it is. -/
def answerWithPc (n : Nat) : Host.Outcome State Fault Refusal → Host.Outcome State Fault Refusal
  | .next s => .next (setPc n s)
  | .fault r => .fault r
  | .refused r => .refused r

/-- The checks of R80 do not read the host's pc. -/
theorem checked_setPc {o : Op} {a f : Bool} {rule : State → Host.Outcome State Fault Refusal} {n : Nat} {s : State}
    (h : rule (setPc n s) = answerWithPc n (rule s)) :
    checked o a f rule (setPc n s) = answerWithPc n (checked o a f rule s) := by
  simp only [checked, setPc_phase, h]
  split_ifs <;> rfl

/-- ABSORB's rule does not read the host's pc (R172). -/
theorem absorbRule_setPc (k : Nat) (d : DataWord) (n : Nat) (s : State) :
    absorbRule k d (setPc n s) = answerWithPc n (absorbRule k d s) := by
  cases ha : xorBytes s.lanes s.pos.toNat d k with
  | none => simp only [absorbRule, setPc_lanes, setPc_pos, ha, answerWithPc]
  | some a =>
    by_cases hf : s.pos.toNat + k = 136
    · rw [absorbRule_full ha hf, absorbRule_full (s := setPc n s) ha hf]; rfl
    · rw [absorbRule_partial ha hf, absorbRule_partial (s := setPc n s) ha hf]; rfl

/-- No command's meaning reads the host's pc: each rule turns on lanes, POS and PHASE alone. -/
theorem exec_setPc (i : Instr) (n : Nat) (s : State) : exec i (setPc n s) = answerWithPc n (exec i s) := by
  cases i with
  | nop | init | clear => rfl
  | absorb k d => exact checked_setPc (absorbRule_setPc k d n s)
  | final =>
    refine checked_setPc ?_
    simp only [finalRule, setPc_lanes, setPc_pos]
    cases xorPadding s.lanes s.pos.toNat <;> rfl
  | squeeze k =>
    refine checked_setPc ?_
    simp only [squeezeRule, setPc_lanes]
    cases readLane s.lanes k <;> rfl
  | permute => exact checked_setPc rfl
  | setlane l d =>
    refine checked_setPc ?_
    simp only [setlaneRule, setPc_lanes]
    cases writeLane s.lanes l d <;> rfl
  | getlane l =>
    refine checked_setPc ?_
    simp only [getlaneRule, setPc_lanes]
    cases readLane s.lanes l <;> rfl

/-- An ILLEGAL word's error entry does not read the host's pc (R222). -/
theorem illegalWord_setPc (n : Nat) (s : State) : illegalWord (setPc n s) = setPc n (illegalWord s) := by
  by_cases h : s.phase = .error
  · rw [illegalWord_of_error h, illegalWord_of_error (s := setPc n s) h]
  · rw [illegalWord_of_not_error h, illegalWord_of_not_error (s := setPc n s) h]; rfl

/-- Accepting a command counts the host's pc and reads it for nothing else (R80). -/
theorem accept_setPc (c : Command) (rest : List HostMove) (n : Nat) (s : State) :
    accept c rest (setPc n s) = answerWithPc (n + 1) (accept c rest s) := by
  cases hd : decode c.word c.data with
  | ok i =>
    rw [accept_ok rest _ hd, accept_ok rest _ hd]
    exact exec_setPc i (n + 1) (takeCommand rest s)
  | error e =>
    rw [accept_error rest _ hd, accept_error rest _ hd]
    exact congrArg Host.Outcome.next (illegalWord_setPc (n + 1) (takeCommand rest s))

/-- The engine step does not read the host's pc (R152). -/
theorem engineStep_setPc (n : Nat) (s : State) : engineStep (setPc n s) = answerWithPc n (engineStep s) := by
  by_cases h : s.round.toNat < 24
  · rw [engineStep, engineStep, dif_pos h, dif_pos (show (setPc n s).round.toNat < 24 from h)]; rfl
  · rw [engineStep, engineStep, dif_neg h, dif_neg (show ¬ (setPc n s).round.toNat < 24 from h)]; rfl

/-- Two states that differ in the host's pc alone step alike: the next states differ in it at most (R24, R227). -/
theorem step_setPc (n : Nat) (s : State) : ∃ m, step (setPc n s) = answerWithPc m (step s) := by
  have he : eventOf (setPc n s) = eventOf s := rfl
  simp only [step, he]
  cases eventOf s with
  | reset rest => exact ⟨0, rfl⟩
  | engine rest => exact ⟨n, engineStep_setPc n (setHost rest s)⟩
  | accept c rest => exact ⟨n + 1, accept_setPc c rest n s⟩
  | quiet rest => exact ⟨n, rfl⟩

/-- Two states that differ in the host's pc alone run alike, by induction on the steps. -/
theorem runs_setPc {k : Nat} {s t : State} (h : Runs k s t) (n : Nat) : ∃ m, Runs k (setPc n s) (setPc m t) := by
  induction k generalizing s n with
  | zero =>
    obtain rfl := (runs_zero_iff s t).1 h
    exact ⟨n, (runs_zero_iff _ _).2 rfl⟩
  | succ k ih =>
    obtain ⟨u, hs, hu⟩ := (runs_succ_iff k s t).1 h
    obtain ⟨m, hm⟩ := step_setPc n s
    rw [hs] at hm
    obtain ⟨m', hrun⟩ := ih hu m
    exact ⟨m', (runs_succ_iff _ _ _).2 ⟨setPc m u, hm, hrun⟩⟩

/-! ## Nothing is carried over an INIT (R201, R203) -/

/-- INIT's word decodes to INIT (R202). -/
theorem decode_init (d : DataWord) : decode 0x1000#16 d = .ok .init := decode_of_selects (o := .init) (by decide) d

/-- INIT and CLEAR leave of the state before them BUSY, the host's moves and its pc alone (R202, R204). -/
theorem restart_eq_setPc {s₁ s₂ : State} (p : Phase) (hb : s₁.busy = s₂.busy) (hh : s₁.host = s₂.host) :
    restart p s₂ = setPc s₂.pc (restart p s₁) := by
  simp only [restart, setPc, hb, hh]

/-- Settles O55: the two states after INIT differ in the host's pc alone, and such states run alike. -/
theorem nothingIsCarriedOverAnInit : Obligations.NothingIsCarriedOverAnInit := by
  intro s₁ s₂ d rest ha₁ ha₂ k t₁ hrun
  obtain ⟨u, hu, hrest⟩ := (runs_succ_iff k s₁ t₁).1 hrun
  have h₁ : step s₁ = .next (restart .absorb (takeCommand rest s₁)) := step_of_decode ha₁ (decode_init d)
  have h₂ : step s₂ = .next (restart .absorb (takeCommand rest s₂)) := step_of_decode ha₂ (decode_init d)
  obtain rfl := Host.Outcome.next.inj (h₁.symm.trans hu)
  have hbusy : (takeCommand rest s₁).busy = (takeCommand rest s₂).busy := ha₁.2.trans ha₂.2.symm
  rw [restart_eq_setPc .absorb hbusy rfl] at h₂
  obtain ⟨m, hm⟩ := runs_setPc hrest (takeCommand rest s₂).pc
  exact ⟨setPc m t₁, (runs_succ_iff _ _ _).2 ⟨_, h₂, hm⟩, rfl⟩

/-! ## NOP, INIT and CLEAR (R200, R202, R204) -/

/-- Settles O25: NOP's meaning answers its state, and the words are its row's. -/
theorem nopChangesNothing : Obligations.NopChangesNothing := by
  refine ⟨fun s => rfl, fun d => ?_, fun w hopc harg => ?_⟩
  · exact decode_of_selects (o := .nop) (by decide) d
  · exact raisesIllegal_of_reservedWord (.inr (.inl ⟨by simp [hopc], harg⟩))

/-- Settles O26: INIT restarts into the ABSORB phase, and the words are its row's. -/
theorem initZeroesTheStateAndEntersAbsorb : Obligations.InitZeroesTheStateAndEntersAbsorb := by
  refine ⟨fun s => rfl, decode_init, fun w hopc harg => ?_⟩
  exact raisesIllegal_of_reservedWord (.inr (.inl ⟨by simp [hopc], harg⟩))

/-- CLEAR's restart with BUSY = 0 is the reset state but for the host's moves and its pc (R42, R204). -/
theorem restart_idle {s : State} (hb : s.busy = false) :
    restart .idle s = { State.reset with pc := s.pc, host := s.host } := by
  simp only [restart, State.reset, hb]

/-- Settles O27: CLEAR restarts into the IDLE phase, which is the reset state but for the host, and the words are its row's. -/
theorem clearReturnsToTheResetState : Obligations.ClearReturnsToTheResetState := by
  refine ⟨fun s => rfl, fun s hb => ?_, fun d => ?_, fun w hopc harg => ?_⟩
  · exact congrArg Host.Outcome.next (restart_idle hb)
  · exact decode_of_selects (o := .clear) (by decide) d
  · exact raisesIllegal_of_reservedWord (.inr (.inl ⟨by simp [hopc], harg⟩))

end Sys2Proof.Machine
end

section
/-! PROOFS. The statements about errors and exceptions (60_exceptions.md): which error an accepted command reports, what the ERROR phase
ignores and what leaves it, and that no run stops, with the lemmas they rest on. -/

namespace Sys2Proof.Machine

/-! ## What a command answers at each check, in the order of R80 -/

/-- A well-formed command that is legal in the phase and has an operand out of range raises BAD_ARG (R73, R80). -/
theorem exec_badArg {i : Instr} {s : State} (hw : i.wf = true) (hp : s.phase ≠ .error) (hl : legalIn i.op s.phase = true)
    (ha : i.operandLegal = false) : exec i s = .next (raiseError .badArg s) := by
  cases i with
  | nop | init | clear | final | permute => cases ha
  | squeeze k => exact absurd (ha.symm.trans hw) Bool.false_ne_true
  | absorb n d | setlane l d | getlane l => exact checked_badArg hp hl ha

/-- An ABSORB of 1 to 8 bytes past the end of the rate raises OVERRUN (R174). -/
theorem exec_overrun {s : State} {n : Nat} {d : DataWord} (hp : s.phase ≠ .error) (hl : legalIn .absorb s.phase = true)
    (ha : (Instr.absorb n d).operandLegal = true) (hf : 136 < s.pos.toNat + n) :
    exec (.absorb n d) s = .next (raiseError .overrun s) :=
  checked_overrun hp hl ha ((chunkFits_eq_false_iff s.pos n).2 hf)

/-- ABSORB's rule answers a state of the same phase wherever its bytes end inside the state (R172, R173). -/
theorem absorbRule_completes {s : State} {n : Nat} (d : DataWord) (hf : s.pos.toNat + n ≤ 136) :
    ∃ t, absorbRule n d s = .next t ∧ t.phase = s.phase := by
  obtain ⟨a, ha, -⟩ := xorBytes_spec s.lanes s.pos.toNat d n (by omega)
  by_cases hfull : s.pos.toNat + n = 136
  · exact ⟨_, absorbRule_full ha hfull, rfl⟩
  · exact ⟨_, absorbRule_partial ha hfull, rfl⟩

/-- A command that passes every check of R80 completes outside the ERROR phase, where POS is inside the rate. -/
theorem exec_completes {i : Instr} {s : State} (hp : s.phase ≠ .error) (hl : legalIn i.op s.phase = true)
    (ha : i.operandLegal = true) (hpos : s.pos.toNat ≤ 135) (hf : ∀ n d, i = .absorb n d → s.pos.toNat + n ≤ 136) :
    ∃ t, exec i s = .next t ∧ t.phase ≠ .error := by
  cases i with
  | nop => exact ⟨s, rfl, hp⟩
  | init => exact ⟨restart .absorb s, rfl, by simp⟩
  | clear => exact ⟨restart .idle s, rfl, by simp⟩
  | absorb n d =>
    have hfit := hf n d rfl
    obtain ⟨t, ht, hph⟩ := absorbRule_completes d hfit
    exact ⟨t, (checked_runs hp hl ha ((chunkFits_iff s.pos n).2 hfit)).trans ht, hph ▸ hp⟩
  | final =>
    obtain ⟨a, hpad, -⟩ := xorPadding_spec s.lanes (show s.pos.toNat < 200 by omega)
    exact ⟨_, (checked_runs hp hl rfl rfl).trans (finalRule_next hpad), by simp⟩
  | squeeze k =>
    have hk : k < 4 := of_decide_eq_true ha
    exact ⟨_, (checked_runs hp hl rfl rfl).trans (squeezeRule_next (show k < 25 by omega)), hp⟩
  | permute => exact ⟨startPermutation s, checked_runs hp hl rfl rfl, hp⟩
  | setlane l d =>
    have hlane : l ≤ 24 := of_decide_eq_true ha
    exact ⟨_, (checked_runs hp hl ha rfl).trans (setlaneRule_next (show l < 25 by omega)), hp⟩
  | getlane l =>
    have hlane : l ≤ 24 := of_decide_eq_true ha
    exact ⟨_, (checked_runs hp hl ha rfl).trans (getlaneRule_next (show l < 25 by omega)), hp⟩

/-! ## No run stops (R220, R235) -/

/-- A well-formed command answers a next state where POS is inside the rate: no check and no rule stops the machine. -/
theorem exec_next {i : Instr} {s : State} (hw : i.wf = true) (hpos : s.pos.toNat ≤ 135) : ∃ t, exec i s = .next t := by
  by_cases hp : s.phase = .error
  · cases i with
    | nop | init | clear => exact ⟨_, rfl⟩
    | absorb | final | squeeze | permute | setlane | getlane => exact ⟨s, exec_of_error (by simp [Instr.op]) hp⟩
  cases hl : legalIn i.op s.phase with
  | false => exact ⟨_, exec_wrongPhase hp hl⟩
  | true =>
    cases ha : i.operandLegal with
    | false => exact ⟨_, exec_badArg hw hp hl ha⟩
    | true =>
      by_cases hf : ∀ n d, i = .absorb n d → s.pos.toNat + n ≤ 136
      · obtain ⟨t, ht, -⟩ := exec_completes hp hl ha hpos hf
        exact ⟨t, ht⟩
      · push Not at hf
        obtain ⟨n, d, rfl, hover⟩ := hf
        exact ⟨_, exec_overrun hp hl ha hover⟩

/-- Accepting a command answers a next state where POS is inside the rate, whatever the word (R220). -/
theorem accept_next (c : Command) (rest : List HostMove) {s : State} (hpos : s.pos.toNat ≤ 135) :
    ∃ t, accept c rest s = .next t := by
  cases hd : decode c.word c.data with
  | ok i => rw [accept_ok rest s hd]; exact exec_next (wf_of_decode hd) hpos
  | error e => exact ⟨_, accept_error rest s hd⟩

/-- Every step from a state that meets the invariants answers a next state (R220, R235). -/
theorem step_next {s : State} (hi : s.Inv) : ∃ t, step s = .next t := by
  rcases step_cases s with ⟨rest, -, hs⟩ | ⟨hx, hb, -⟩ | ⟨c, rest, -, -, hs⟩ | ⟨rest, -, -, hs⟩
  · exact ⟨_, hs⟩
  · exact ⟨_, step_round hx hb (Nat.lt_succ_of_le (hi.roundBusy hb))⟩
  · rw [hs]; exact accept_next c rest hi.posInRate
  · exact ⟨_, hs⟩

/-- Settles O49: by induction on the run's length; each step answers a next state, and the invariants hold there. -/
theorem noRunEverStops : Obligations.NoRunEverStops := by
  intro k
  induction k with
  | zero => exact fun s hi => ⟨s, (runs_zero_iff s s).2 rfl, hi⟩
  | succ k ih =>
    intro s hi
    obtain ⟨u, hu⟩ := step_next hi
    obtain ⟨t, hrun, ht⟩ := ih u (step_keeps_inv hi hu)
    exact ⟨t, (runs_succ_iff k s t).2 ⟨u, hu, hrun⟩, ht⟩

/-! ## What ends in the ERROR phase (R222, R226) -/

/-- A command that ends in the ERROR phase either found it there and did nothing, or was an error entry. -/
theorem exec_error_cases {i : Instr} {s t : State} (h : exec i s = .next t) (ht : t.phase = .error) :
    (s.phase = .error ∧ t = s) ∨ (s.phase ≠ .error ∧ ∃ c, c ≠ .none ∧ t = raiseError c s) := by
  rcases exec_inv h with ⟨-, rfl⟩ | ⟨hp, -, c, hc, rfl⟩ | ⟨-, rfl⟩ | ⟨-, rfl⟩ |
    ⟨hp, n, d, a, -, -, -, -, -, ⟨-, rfl⟩ | ⟨-, rfl⟩⟩ | ⟨hp, -, a, -, rfl⟩ | ⟨hp, k, v, -, -, rfl⟩ |
    ⟨hp, -, rfl⟩ | ⟨hp, l, d, a, -, -, -, rfl⟩ | ⟨hp, l, v, -, -, -, rfl⟩
  · exact .inl ⟨ht, rfl⟩
  · exact .inr ⟨hp, c, hc, rfl⟩
  · exact absurd ht (by simp)
  · exact absurd ht (by simp)
  all_goals exact absurd ht (by simp [hp])

/-- An accepted word that leads to the ERROR phase either found it there and only moved the host on, or was an error entry (R222, R223). -/
theorem accept_error_cases {c : Command} {rest : List HostMove} {s t : State} (h : accept c rest s = .next t)
    (ht : t.phase = .error) :
    (s.phase = .error ∧ t = takeCommand rest s) ∨
    (s.phase ≠ .error ∧ ∃ code, code ≠ .none ∧ t = raiseError code (takeCommand rest s)) := by
  rcases accept_inv h with ⟨i, -, hx⟩ | ⟨e, -, rfl⟩
  · exact exec_error_cases hx ht
  · by_cases hp : s.phase = .error
    · exact .inl ⟨hp, illegalWord_of_error (s := takeCommand rest s) hp⟩
    · exact .inr ⟨hp, .illegal, by decide, illegalWord_of_not_error (s := takeCommand rest s) hp⟩

/-- Settles O41: outside the ERROR phase only an error entry leads to it. -/
theorem errorsArePrecise : Obligations.ErrorsArePrecise := by
  intro s t c rest ⟨hc, hb⟩ hp hs ht
  rw [step_accept hc hb] at hs
  rcases accept_error_cases hs ht with ⟨he, -⟩ | ⟨-, code, hcode, rfl⟩
  · exact absurd he hp
  · exact ⟨hcode, rfl⟩

/-- An engine step leaves PHASE and ERRCODE as they are (R152). -/
theorem engineStep_phase_errcode {s t : State} (h : engineStep s = .next t) : t.phase = s.phase ∧ t.errcode = s.errcode := by
  obtain ⟨hr, rfl⟩ := engineStep_inv h; exact ⟨rfl, rfl⟩

/-- Settles O45: by the event of the step; an accepted command that stays in the ERROR phase does nothing. -/
theorem firstErrorCodeIsKept : Obligations.FirstErrorCodeIsKept := by
  intro s t hp hs ht
  rcases step_cases s with ⟨rest, -, he⟩ | ⟨-, -, he⟩ | ⟨c, rest, -, -, he⟩ | ⟨rest, -, -, he⟩ <;> rw [he] at hs
  · obtain rfl := Host.Outcome.next.inj hs
    exact absurd ht (by simp)
  · exact (engineStep_phase_errcode hs).2
  · rcases accept_error_cases hs ht with ⟨-, rfl⟩ | ⟨hne, -⟩
    · rfl
    · exact absurd hp hne
  · obtain rfl := Host.Outcome.next.inj hs
    rfl

/-! ## The order of the errors (R225) -/

/-- The commands that the table of R81 does not allow in a phase other than ERROR. -/
theorem legalIn_eq_false_iff {p : Phase} (hp : p ≠ .error) (o : Op) :
    legalIn o p = false ↔
      ((o = .absorb ∨ o = .final) ∧ p ≠ .absorb) ∨ (o = .squeeze ∧ p ≠ .squeeze) ∨
        ((o = .permute ∨ o = .setlane) ∧ p ≠ .idle) := by
  cases o with
  | getlane => simp [legalIn_getlane hp]
  | _ => simp [legalIn]

/-- Settles O42: a reserved word does not decode; a decoded command meets the checks of R80 one after the other. -/
theorem firstErrorInThePriorityIsReported : Obligations.FirstErrorInThePriorityIsReported := by
  intro s w d rest ha hp wrongPhase raises
  refine ⟨fun hr => raisesIllegal_of_reservedWord hr s d rest ha hp, fun i hi => ?_⟩
  have hwrong : wrongPhase i.op ↔ legalIn i.op s.phase = false := (legalIn_eq_false_iff hp i.op).symm
  simp only [raises, hwrong, Bool.not_eq_false, step_of_decode ha hi]
  refine ⟨exec_wrongPhase (s := takeCommand rest s) hp, exec_badArg (s := takeCommand rest s) (wf_of_decode hi) hp,
    fun hl harg => ⟨?_, fun hf hpos => exec_completes (s := takeCommand rest s) hp hl harg hpos hf⟩⟩
  rintro n d' rfl hover
  exact exec_overrun (s := takeCommand rest s) hp hl harg hover

/-! ## The ERROR phase (R223, R224) -/

/-- A row without operands holds one word, its pattern (R71, R74). -/
theorem eq_pattern_of_selects {o : Op} {w : CmdWord} (ho : o.argBits = 0) (h : o.selects w = true) : w = o.pattern := by
  have hpat : o.selects o.pattern = true := (selects_iff o _).2 rfl
  exact eq_of_selects h hpat (by rw [ho, pow_zero, Nat.mod_one, Nat.mod_one])

/-- Only the words of NOP, INIT and CLEAR decode to these commands (R74). -/
theorem op_notMem_of_word_notMem {w : CmdWord} {d : DataWord} {i : Instr} (hi : decode w d = .ok i)
    (hw : w ∉ [0x0000#16, 0x1000#16, 0x2000#16]) : i.op ∉ [Op.nop, .init, .clear] := by
  have hsel := (decode_ok hi).1
  intro hm
  refine hw ?_
  simp only [List.mem_cons, List.not_mem_nil, or_false] at hm
  rcases hm with ho | ho | ho <;> rw [ho] at hsel <;> rw [eq_pattern_of_selects rfl hsel] <;> decide

/-- In the ERROR phase a word other than NOP's, INIT's and CLEAR's only moves the host on, an ILLEGAL word too (R223). -/
theorem step_of_error {s : State} {c : Command} {rest : List HostMove} (ha : Accepts s c rest) (hp : s.phase = .error)
    (hw : c.word ∉ [0x0000#16, 0x1000#16, 0x2000#16]) : step s = .next (takeCommand rest s) := by
  cases hd : decode c.word c.data with
  | ok i => exact (step_of_decode ha hd).trans (exec_of_error (s := takeCommand rest s) (op_notMem_of_word_notMem hd hw) hp)
  | error e => rw [step_of_decode_error ha hd, illegalWord_of_error (s := takeCommand rest s) hp]

/-- NOP's word decodes to NOP (R200). -/
theorem decode_nop (d : DataWord) : decode 0x0000#16 d = .ok .nop := decode_of_selects (o := .nop) (by decide) d

/-- CLEAR's word decodes to CLEAR (R204). -/
theorem decode_clear (d : DataWord) : decode 0x2000#16 d = .ok .clear := decode_of_selects (o := .clear) (by decide) d

/-- Settles O43: the three words decode to their commands, and every other word only moves the host on. -/
theorem errorPhaseIgnoresOtherCommands : Obligations.ErrorPhaseIgnoresOtherCommands := by
  intro s w d rest ha hp
  refine ⟨?_, ?_, ?_, step_of_error ha hp⟩ <;> rintro rfl
  · exact step_of_decode ha (decode_nop d)
  · exact step_of_decode ha (decode_init d)
  · exact step_of_decode ha (decode_clear d)

/-- In the ERROR phase an accepted word other than INIT's and CLEAR's only moves the host on: NOP does nothing (R223, R224). -/
theorem step_of_error_of_not_restart {s : State} {c : Command} {rest : List HostMove} (ha : Accepts s c rest)
    (hp : s.phase = .error) (hw : ¬ (c.word = 0x1000#16 ∨ c.word = 0x2000#16)) : step s = .next (takeCommand rest s) := by
  by_cases hnop : c.word = 0x0000#16
  · exact step_of_decode ha (hnop ▸ decode_nop c.data)
  · exact step_of_error ha hp (by simpa [hnop] using hw)

/-- Settles O44: INIT, CLEAR and reset zero the state; of the other events a step in the ERROR phase can be, none changes PHASE. -/
theorem onlyInitClearAndResetLeaveError : Obligations.OnlyInitClearAndResetLeaveError := by
  intro s hp
  refine ⟨fun d rest ha => ?_, fun d rest ha => ?_, fun hx => ?_, fun t hs ht => ?_⟩
  · exact ⟨_, step_of_decode ha (decode_init d), rfl, rfl, rfl⟩
  · exact ⟨_, step_of_decode ha (decode_clear d), rfl, rfl, rfl⟩
  · obtain ⟨rest, hh⟩ := (rst_iff s).1 hx
    exact ⟨_, step_reset hh, rfl, rfl, rfl⟩
  · rcases step_cases s with ⟨rest, hh, -⟩ | ⟨-, -, he⟩ | ⟨c, rest, hc, hb, -⟩ | ⟨rest, -, -, he⟩
    · exact .inl ((rst_iff s).2 ⟨rest, hh⟩)
    · rw [he] at hs
      exact absurd ((engineStep_phase_errcode hs).1.trans hp) ht
    · refine .inr ⟨c.word, c.data, rest, ⟨hc, hb⟩, by_contra fun hw => ht ?_⟩
      obtain rfl := Host.Outcome.next.inj (hs.symm.trans (step_of_error_of_not_restart ⟨hc, hb⟩ hp hw))
      exact hp
    · obtain rfl := Host.Outcome.next.inj (hs.symm.trans he)
      exact absurd hp ht

/-! ## The one event of a step (R227) -/

/-- Settles O4: the law of each event. -/
theorem stepEventsFollowThePriority : Obligations.StepEventsFollowThePriority := fun s =>
  ⟨fun _ hh => step_reset hh, fun hx hb => ⟨afterEngine s.host, step_busy hx hb⟩, fun _ _ hc hb => step_accept hc hb,
    fun _ hh hb => step_wait hh hb, fun hh hb => step_quiet hh hb⟩

end Sys2Proof.Machine
end

section
/-! PROOFS. The statement about reset (70_reset_and_hazards.md), with the lemma it rests on. -/

namespace Sys2Proof.Machine

/-- `cmd_ready` is 0 at a step with `rst = 1`, BUSY or not (R33). -/
theorem cmdReady_of_reset {s : State} {rest : List HostMove} (h : s.host = .reset :: rest) : s.cmdReady = false := by
  have hrst : s.rst = true := (rst_iff s).2 ⟨rest, h⟩
  simp [State.cmdReady, hrst]

/-- Settles O2: the law of the reset event, whose next state is the reset state with the host moved on. -/
theorem resetStepRestoresEveryRegister : Obligations.ResetStepRestoresEveryRegister :=
  fun _ _ hh => ⟨cmdReady_of_reset hh, step_reset hh⟩

end Sys2Proof.Machine
end
